-- ==== Sys2Proof/Word.lean ====
section
/-! DEFINITION. The two widths of CKF: 16-bit words on both ports and 8-bit bytes (R8, R9, R45). -/

namespace Sys2Proof

/-- An input word or an output word (R44, R60, R64). Bit 0 is the least significant bit (R9). -/
abbrev Word := BitVec 16

/-- One byte, unsigned (R8, R9). -/
abbrev Byte := BitVec 8

end Sys2Proof
end

