-- ==== Sys2Proof/Config.lean ====
section
/-! DEFINITION. What is fixed when a block is built: the one parameter MAX_PAYLOAD (R7). -/

namespace Sys2Proof

/-- The parameters of a built block. R8's values (widths, header, skip count) are fixed and are no parameters. -/
structure Config where
  /-- MAX_PAYLOAD, the payload bytes the framer can hold; an integer at least 1 (R7, `Config.wf`). -/
  maxPayload : Nat
deriving DecidableEq, Repr

/-- The spec's reference value MAX_PAYLOAD = 256 (R7). DESIGN CHOICE (log 1): `State.reset` is built with it. -/
def Config.reference : Config := { maxPayload := 256 }

end Sys2Proof
end

