-- ==== Sys2Proof/Syntax.lean ====
section
/-! DEFINITION. The instructions of CKF, one constructor per row of spec/opcode_table.json (R63), and the lines of
CKF assembly (R74, R75). -/

namespace Sys2Proof

/-- The six instructions (R63). The only operand field is D, one byte, and only DATA carries it (R61). -/
inductive Instr where
  /-- CSUM.BEGIN, 0x1000 (R104) -/
  | csumBegin
  /-- FRAME.BEGIN, 0x2000 (R123) -/
  | frameBegin
  /-- DATA, 0x3000 | D (R142) -/
  | data (d : Byte)
  /-- END, 0x4000 (R143) -/
  | endOp
  /-- ABORT, 0x5000 (R140) -/
  | abort
  /-- STATUS, 0x6000 (R141) -/
  | status
deriving DecidableEq, Repr

/-- One line of CKF assembly as written (R74, R75). Its numerals are numbers that have not been range-checked:
a value outside the range is an assembly error, never truncated (`AsmLine.wf`). -/
inductive AsmLine where
  | csumBegin
  | frameBegin
  | data (imm8 : Nat)
  | endOp
  | abort
  | status
  /-- `.word imm16`, the only way to write an illegal word -/
  | word (imm16 : Nat)
  /-- the pseudo-instruction `CSUM b0, …, bn-1` -/
  | csum (bytes : List Nat)
  /-- the pseudo-instruction `FRAME p0, …, pn-1` -/
  | frame (payload : List Nat)
deriving DecidableEq, Repr

end Sys2Proof
end

