-- ==== Sys2Proof/Machine/State.lean ====
section
/-! DEFINITION. Everything the machine holds: the block's five fields (R20), the parameter of its step, its two
ports as the host and the consumer drive them, and the fault history a model keeps (R181). -/

namespace Sys2Proof.Machine

/-- MODE (R21): which operation is in progress. Its 2-bit encoding is `Mode.bits` (Machine/Flags.lean). -/
inductive Mode where
  /-- 0: no operation in progress -/
  | idle
  /-- 1: a checksum operation -/
  | csum
  /-- 2: a framing operation -/
  | frame
  /-- 3: a fault has been taken and not cleared -/
  | err
deriving DecidableEq, Repr

/-- The four faults of the block (R160). Their codes are `FaultCode.bits` (Machine/Flags.lean). These are states the
block goes on from, not stops of the machine. -/
inductive FaultCode where
  /-- 1: an illegal word outside ERR (R161) -/
  | illegal
  /-- 2: a legal word that does not fit the mode (R162) -/
  | sequence
  /-- 3: CSUM END after fewer than two bytes (R163) -/
  | short
  /-- 4: FRAME DATA with the buffer full (R164) -/
  | overflow
deriving DecidableEq, Repr

/-- The CKF state S, exactly five fields (R20). -/
structure Block where
  /-- MODE, 2 bits (R21) -/
  mode : Mode
  /-- ACC, 8 bits (R22) -/
  acc : Byte
  /-- SKIP, 2 bits (R23) -/
  skip : BitVec 2
  /-- BUF, the payload bytes in arrival order (R24) -/
  buf : List Byte
  /-- ERR_CODE, 4 bits (R25) -/
  errCode : BitVec 4
deriving DecidableEq, Repr

/-- The reset value of every field, which is the IDLE row of R26 (R31, R190). -/
def Block.idle : Block := { mode := .idle, acc := 0#8, skip := 0#2, buf := [], errCode := 0#4 }

/-- What the host does next at the input side (R191, R195). -/
inductive Event where
  /-- the host presents this input word until it is accepted -/
  | word (w : Word)
  /-- rst is asserted between two steps; the word the host is presenting meanwhile, if any, is not accepted -/
  | rst (presented : Option Word)
deriving DecidableEq, Repr

/-- What the consumer does at every step after those its list speaks of (R195, R196 row 5; DESIGN CHOICE, log 3). -/
inductive ConsumerRest where
  /-- it keeps taking: every outstanding output word, at every step -/
  | takesAll
  /-- it has stopped: no output word, ever again -/
  | takesNone
deriving DecidableEq, Repr

/-- One entry of the fault history: the fault's code and the index of its input word (R181). -/
structure FaultRecord where
  code : FaultCode
  index : Nat
deriving DecidableEq, Repr

/-- The machine's state. `block` is the spec's S; `cfg` is the parameter of its step (R7, R20; log 1); the rest is
the model's own: the ports as driven from outside (logs 2, 3), the bookkeeping of R29 and R181 (log 6), and whether
rst has been asserted once (R192; log 4). -/
structure State where
  /-- MAX_PAYLOAD; no step changes it (R193) -/
  cfg : Config
  /-- the block's five fields -/
  block : Block
  /-- rst has been asserted at least once (R192) -/
  resetDone : Bool
  /-- what the host will do at the input side, first things first -/
  input : List Event
  /-- how many outstanding output words the consumer takes at each coming step -/
  consumer : List Nat
  /-- what the consumer does past the end of that list -/
  consumerRest : ConsumerRest
  /-- output words on the port that the consumer has not taken yet, oldest first (R195) -/
  pending : List Word
  /-- output words the consumer has taken, oldest first (R199) -/
  taken : List Word
  /-- how many input words the block has accepted, the host's position in the run (R29) -/
  accepted : Nat
  /-- every fault entry so far, oldest first; nothing clears it (R181) -/
  history : List FaultRecord
deriving DecidableEq, Repr

/-- The machine stops with a fault: never. Every 16-bit word in every state has exactly one outcome, a new state and
a list of output words (R70), and the block's own faults (R160) are such states. So this type has no constructor
(log 12; safe). -/
inductive Fault where
deriving DecidableEq, Repr

/-- Why the model gives no meaning. -/
inductive Refusal where
  /-- Raised by an arm of `exec` for an instruction without a meaning; no arm raises it now. Safe: the model stops. -/
  | notModelled (mnemonic : String)
  /-- Raised by the step when a word is presented to a block that was never reset: the spec gives that block's state
  no meaning and a model refuses it (R192, K8; log 4). Safe: nothing can be claimed of such a block. -/
  | beforeFirstReset
  /-- Raised by `start` for a start state that reset cannot reach (R192; log 13). Safe: no run begins there. -/
  | unreachableStart
deriving DecidableEq, Repr

/-- The machine right after reset (R31, R190) for a block built with the parameters `c`: nothing presented yet, no
output, an empty fault history, and a consumer that keeps taking. -/
def State.resetWith (c : Config) : State :=
  { cfg := c, block := Block.idle, resetDone := true, input := [], consumer := [], consumerRest := .takesAll,
    pending := [], taken := [], accepted := 0, history := [] }

/-- The machine right after reset, at the spec's reference value MAX_PAYLOAD = 256 (R7, R31; log 1). -/
def State.reset : State := State.resetWith Config.reference

end Sys2Proof.Machine
end

