-- ==== Sys2Proof/Machine/Operands.lean ====
section
/-! DEFINITION. The one operand form of CKF and the one width change it makes (R9, R61). -/

namespace Sys2Proof.Machine

/-- The D operand of a DATA word: one unsigned byte, used as it stands, neither extended, scaled nor shifted (R61). -/
def dataOperand (d : Byte) : Byte := d

/-- `zext_16(b)`: the byte in bits 7..0 of a word, bits 15..8 zero (R9). -/
def zext16 (b : Byte) : Word := b.setWidth 16

/-- `NOT8(x)`, the 8-bit bitwise complement (R9). -/
def not8 (x : Byte) : Byte := ~~~x

/-- `(ACC + D) mod 256`: a carry out of bit 7 is dropped, never added back in (R103, R105, R124; conflict C1). -/
def addByte (acc d : Byte) : Byte := acc + d

end Sys2Proof.Machine
end

