-- ==== Sys2Proof/Machine/Flags.lean ====
section
/-! DEFINITION. The encodings of MODE and ERR_CODE, and the two views that have no storage of their own: the STATUS
byte (R32) and the level output err_o (R171). -/

namespace Sys2Proof.Machine

/-- MODE's 2-bit value (R21). -/
def Mode.bits : Mode → BitVec 2
  | .idle => 0#2
  | .csum => 1#2
  | .frame => 2#2
  | .err => 3#2

/-- A fault's 4-bit code, the value written to ERR_CODE (R25, R160). -/
def FaultCode.bits : FaultCode → BitVec 4
  | .illegal => 1#4
  | .sequence => 2#4
  | .short => 3#4
  | .overflow => 4#4

/-- The fault a code names; codes 0 and 5..15 name none (R160). -/
def FaultCode.ofBits (c : BitVec 4) : Option FaultCode :=
  if c = 1#4 then some .illegal
  else if c = 2#4 then some .sequence
  else if c = 3#4 then some .short
  else if c = 4#4 then some .overflow
  else none

/-- The STATUS byte: ERR_CODE in bits 7:4, zero in bits 3:2, MODE in bits 1:0 (R32, R141). -/
def statusByte (b : Block) : Byte := (b.errCode.setWidth 8 <<< 4) ||| b.mode.bits.setWidth 8

/-- The seven values the STATUS byte can take (R32). -/
def statusValues : List Byte := [0x00#8, 0x01#8, 0x02#8, 0x13#8, 0x23#8, 0x33#8, 0x43#8]

/-- err_o: 1 exactly when MODE = ERR, combinational from MODE (R171). -/
def errO (b : Block) : Bool := decide (b.mode = .err)

end Sys2Proof.Machine
end

