-- ==== Sys2Proof/Machine/Output.lean ====
section
/-! DEFINITION. The output words (R64, R65): how each kind is built, how a consumer reads one, and how it finds the
packets in a stream of them. -/

namespace Sys2Proof.Machine

/-- `0x1100 | c`: KIND RESULT, LAST 1 (R65, R106). -/
def resultWord (c : Byte) : Word := 0x1100#16 ||| zext16 c

/-- `0x2000 | b`: KIND PKT, LAST 0, a packet byte but the last (R65, R125). -/
def pktWord (b : Byte) : Word := 0x2000#16 ||| zext16 b

/-- `0x2100 | c`: KIND PKT, LAST 1, the packet's checksum byte (R65, R125). -/
def pktLastWord (c : Byte) : Word := 0x2100#16 ||| zext16 c

/-- `0x3100 | code`: KIND FAULT, LAST 1 (R65, R160, R165). -/
def faultWord (code : FaultCode) : Word := 0x3100#16 ||| code.bits.setWidth 16

/-- `0x4100 | status`: KIND STAT, LAST 1 (R65, R141). -/
def statWord (b : Block) : Word := 0x4100#16 ||| zext16 (statusByte b)

/-- KIND, bits 15:12 (R64). -/
def kindField (w : Word) : BitVec 4 := w.extractLsb' 12 4

/-- The reserved output bits 11:9 (R64). -/
def outRsvField (w : Word) : BitVec 3 := w.extractLsb' 9 3

/-- LAST, bit 8 (R64). -/
def lastField (w : Word) : BitVec 1 := w.extractLsb' 8 1

/-- The byte carried, bits 7:0 (R64). -/
def outByteField (w : Word) : Byte := w.extractLsb' 0 8

/-- What an output word carries (R65). -/
inductive OutMsg where
  | result (c : Byte)
  | pkt (last : Bool) (b : Byte)
  | fault (code : FaultCode)
  | stat (b : Byte)
deriving DecidableEq, Repr

/-- The consumer's reading of an output word: `none` for every word CKF never emits (R65, K5), that is a KIND outside
1..4, a reserved bit set, LAST 0 on a one-word response, a code that names no fault (R160) or a STATUS byte that is
not one of the seven (R32). -/
def readOutWord (w : Word) : Option OutMsg :=
  if outRsvField w ≠ 0#3 then none
  else if kindField w = 1#4 then
    if lastField w = 1#1 then some (.result (outByteField w)) else none
  else if kindField w = 2#4 then some (.pkt (decide (lastField w = 1#1)) (outByteField w))
  else if kindField w = 3#4 then
    if lastField w = 1#1 ∧ (outByteField w).extractLsb' 4 4 = 0#4 then
      (FaultCode.ofBits ((outByteField w).extractLsb' 0 4)).map OutMsg.fault
    else none
  else if kindField w = 4#4 then
    if lastField w = 1#1 ∧ outByteField w ∈ statusValues then some (.stat (outByteField w)) else none
  else none

/-- Why a host gives an output stream no meaning. -/
inductive StreamRefusal where
  /-- The stream holds the word `w`, which CKF never emits, so it is not from CKF (R65, K5). Raised by `packetsFrom`.
  Safe: no packet is read from such a stream. -/
  | notFromCkf (w : Word)
deriving DecidableEq, Repr

/-- The packets in a stream, given the bytes `cur` of one already begun: a packet is the run of PKT words up to and
including the next one with LAST = 1 (R65). A stream with a word CKF never emits is refused as not from CKF (K5 for
a reserved KIND or bit; for the other words outside R65's table DESIGN CHOICE, log 14). A word with LAST = 1 that is no
PKT word ends an open run without a packet (DESIGN CHOICE, log 14). -/
def packetsFrom (cur : List Byte) : List Word → Except StreamRefusal (List (List Byte))
  | [] => .ok []
  | w :: ws =>
    match readOutWord w with
    | some (.pkt false b) => packetsFrom (cur ++ [b]) ws
    | some (.pkt true b) => (packetsFrom [] ws).map (fun ps => (cur ++ [b]) :: ps)
    | some (.result _) => packetsFrom [] ws
    | some (.fault _) => packetsFrom [] ws
    | some (.stat _) => packetsFrom [] ws
    | none => .error (.notFromCkf w)

/-- The packets in an output stream that begins at reset or after a word with LAST = 1 (R65), or the refusal of a
stream that is not from CKF (K5). -/
def packets (ws : List Word) : Except StreamRefusal (List (List Byte)) := packetsFrom [] ws

end Sys2Proof.Machine
end

