-- ==== Sys2Proof/Machine/Ops.lean ====
section
/-! DEFINITION. The named operations on the state: emitting output words, taking a fault and returning from it,
discarding, reset, and the bookkeeping of an accepted word (R11, R165, R167, R169, R190, R181). -/

namespace Sys2Proof.Machine

/-- Replace the block's five fields. -/
def setBlock (b : Block) (s : State) : State := { s with block := b }

/-- `emit(w)` for each word in order: onto the output port, behind what is there (R11, R46). -/
def emit (ws : List Word) (s : State) : State := { s with pending := s.pending ++ ws }

/-- `discard`: no state change and no output (R11, R167). -/
def discard (s : State) : State := s

/-- The block right after the entry of a fault (R165). -/
def faultBlock (code : FaultCode) : Block :=
  { mode := .err, acc := 0#8, skip := 0#2, buf := [], errCode := code.bits }

/-- Put a fault entry on the history: its code and the index of the word that faults, which is the count of words
accepted before it (R181; DEDUCED, log 6). -/
def recordFault (code : FaultCode) (s : State) : State :=
  { s with history := s.history ++ [{ code := code, index := s.accepted }] }

/-- `raise Fault(code)`, TAKING A FAULT: the FAULT word is emitted, MODE becomes ERR, ERR_CODE the code, and ACC, SKIP
and BUF are cleared; nothing is saved and there is no vector (R165). The model's history records the entry (R181). -/
def raiseFault (code : FaultCode) (s : State) : State :=
  recordFault code (setBlock (faultBlock code) (emit [faultWord code] s))

/-- Return to IDLE, every field at its reset value: ABORT's effect, and the return from a fault (R140, R169). -/
def returnToIdle (s : State) : State := setBlock Block.idle s

/-- rst: every field to its reset value, nothing emitted (R190). The model notes that rst has been asserted (R192)
and keeps its history and its count (R181; DESIGN CHOICE, log 6). -/
def resetBlock (s : State) : State := { s with block := Block.idle, resetDone := true }

/-- One more input word has been accepted (R29). -/
def countWord (s : State) : State := { s with accepted := s.accepted + 1 }

/-- Every output word emitted so far, in order: what the consumer has taken, then what is still on the port (R48,
R199). -/
def output (s : State) : List Word := s.taken ++ s.pending

/-- An illegal word (R161, R167): ILLEGAL outside ERR, discarded in ERR. -/
def takeIllegal (s : State) : State :=
  match s.block.mode with
  | .idle => raiseFault .illegal s
  | .csum => raiseFault .illegal s
  | .frame => raiseFault .illegal s
  | .err => discard s

end Sys2Proof.Machine
end

