-- ==== Sys2Proof/Machine/Csum.lean ====
section
/-! DEFINITION. The CSUM operation: CSUM.BEGIN, and the CSUM arms of DATA and END (R104, R105, R106). -/

namespace Sys2Proof.Machine

/-- CSUM.BEGIN in IDLE: open a checksum operation (R104). -/
def openCsum (s : State) : State := setBlock { s.block with mode := .csum, acc := 0#8, skip := 2#2, buf := [] } s

/-- DATA in CSUM: the first two bytes only count SKIP down, every later byte is added to ACC (R105).
SKIP = 3, which no run reaches (R23), follows the same text (DEDUCED, log 8). -/
def csumData (d : Byte) (s : State) : State :=
  if s.block.skip ≠ 0#2 then setBlock { s.block with skip := s.block.skip - 1#2 } s
  else setBlock { s.block with acc := addByte s.block.acc (dataOperand d) } s

/-- END in CSUM: SHORT while SKIP > 0, else the result word and back to IDLE (R106). -/
def csumEnd (s : State) : State :=
  if s.block.skip ≠ 0#2 then raiseFault .short s
  else setBlock { s.block with mode := .idle, acc := 0#8, skip := 0#2 } (emit [resultWord (not8 s.block.acc)] s)

/-- CSUM.BEGIN (R104; dispatch R71): SEQUENCE in CSUM and FRAME (R162), discarded in ERR (R167). -/
def execCsumBegin (s : State) : Host.Outcome State Fault Refusal :=
  match s.block.mode with
  | .idle => .next (openCsum s)
  | .csum => .next (raiseFault .sequence s)
  | .frame => .next (raiseFault .sequence s)
  | .err => .next (discard s)

end Sys2Proof.Machine
end

