-- ==== Sys2Proof/Machine/Frame.lean ====
section
/-! DEFINITION. The FRAME operation: FRAME.BEGIN, and the FRAME arms of DATA and END (R123, R124, R125). -/

namespace Sys2Proof.Machine

/-- FRAME.BEGIN in IDLE: open a framing operation; the header is emitted at END, not here (R123). -/
def openFrame (s : State) : State := setBlock { s.block with mode := .frame, acc := 0#8, skip := 0#2, buf := [] } s

/-- DATA in FRAME: OVERFLOW when BUF already holds MAX_PAYLOAD bytes, else the byte is kept and added to ACC (R124).
A BUF longer than MAX_PAYLOAD, which no run reaches (R26), follows the same text (DEDUCED, log 8). -/
def frameData (d : Byte) (s : State) : State :=
  if s.block.buf.length = s.cfg.maxPayload then raiseFault .overflow s
  else setBlock { s.block with buf := s.block.buf ++ [dataOperand d], acc := addByte s.block.acc (dataOperand d) } s

/-- The output words of FRAME END: header and payload as PKT words with LAST 0, then the checksum byte with LAST 1
(R42, R125). -/
def packetWords (buf : List Byte) (acc : Byte) : List Word :=
  ([0xFF#8, 0xFF#8] ++ buf).map pktWord ++ [pktLastWord (not8 acc)]

/-- END in FRAME: the whole packet in one step, and back to IDLE (R46, R125). -/
def frameEnd (s : State) : State :=
  setBlock { s.block with mode := .idle, acc := 0#8, buf := [] } (emit (packetWords s.block.buf s.block.acc) s)

/-- FRAME.BEGIN (R123; dispatch R71): SEQUENCE in CSUM and FRAME (R162), discarded in ERR (R167). -/
def execFrameBegin (s : State) : Host.Outcome State Fault Refusal :=
  match s.block.mode with
  | .idle => .next (openFrame s)
  | .csum => .next (raiseFault .sequence s)
  | .frame => .next (raiseFault .sequence s)
  | .err => .next (discard s)

end Sys2Proof.Machine
end

