-- ==== Sys2Proof/Machine/Control.lean ====
section
/-! DEFINITION. The instructions that every mode meets: DATA and END, routed by mode (R142, R143), ABORT (R140) and
STATUS (R141). -/

namespace Sys2Proof.Machine

/-- DATA (R142): SEQUENCE in IDLE, the CSUM arm, the FRAME arm, discarded in ERR. -/
def execData (d : Byte) (s : State) : Host.Outcome State Fault Refusal :=
  match s.block.mode with
  | .idle => .next (raiseFault .sequence s)
  | .csum => .next (csumData d s)
  | .frame => .next (frameData d s)
  | .err => .next (discard s)

/-- END (R143): SEQUENCE in IDLE, the CSUM arm, the FRAME arm, discarded in ERR. -/
def execEnd (s : State) : Host.Outcome State Fault Refusal :=
  match s.block.mode with
  | .idle => .next (raiseFault .sequence s)
  | .csum => .next (csumEnd s)
  | .frame => .next (frameEnd s)
  | .err => .next (discard s)

/-- ABORT (R140), in every mode: the open operation or the fault is dropped, nothing is emitted. -/
def execAbort (s : State) : Host.Outcome State Fault Refusal := .next (returnToIdle s)

/-- STATUS (R141), in every mode: one STAT word; no field is written. -/
def execStatus (s : State) : Host.Outcome State Fault Refusal := .next (emit [statWord s.block] s)

end Sys2Proof.Machine
end

