-- ==== Sys2Proof/Machine/Dispatch.lean ====
section
/-! DEFINITION. The dispatch: one arm per instruction (R63, R71). -/

namespace Sys2Proof.Machine

/-- The effect of an accepted legal word. Each meaning reads MODE itself, ERR first (R70, R71, R168). -/
def exec (i : Instr) (s : State) : Host.Outcome State Fault Refusal :=
  match i with
  | .csumBegin => Sys2Proof.Machine.execCsumBegin s
  | .frameBegin => Sys2Proof.Machine.execFrameBegin s
  | .data d => Sys2Proof.Machine.execData d s
  | .endOp => Sys2Proof.Machine.execEnd s
  | .abort => Sys2Proof.Machine.execAbort s
  | .status => Sys2Proof.Machine.execStatus s

end Sys2Proof.Machine
end

