-- ==== Sys2Proof/WellFormed.lean ====
section
/-! DEFINITION. The checks on what a user of the model writes: an instruction, an assembly line and a parameter
set. The state's own well-formedness (R26) is in Machine/Invariant.lean. -/

namespace Sys2Proof

/-- Every instruction is well formed: D is a byte by its type, every value 0x00..0xFF of it is legal (R61, R142),
and no other instruction has an operand. -/
def Instr.wf : Instr → Bool
  | .csumBegin => true
  | .frameBegin => true
  | .data _ => true
  | .endOp => true
  | .abort => true
  | .status => true

/-- An imm8 of R74: 0..255. -/
def imm8Ok (n : Nat) : Bool := decide (n ≤ 255)

/-- An imm16 of R74: 0..65535. -/
def imm16Ok (n : Nat) : Bool := decide (n ≤ 65535)

/-- The range checks of R74; the pseudo-instructions' bytes are imm8 operands of the DATA words they expand to (R75). -/
def AsmLine.wf : AsmLine → Bool
  | .csumBegin => true
  | .frameBegin => true
  | .data n => imm8Ok n
  | .endOp => true
  | .abort => true
  | .status => true
  | .word n => imm16Ok n
  | .csum bs => bs.all imm8Ok
  | .frame ps => ps.all imm8Ok

/-- MAX_PAYLOAD is an integer at least 1 (R7). -/
def Config.wf (c : Config) : Bool := decide (1 ≤ c.maxPayload)

end Sys2Proof
end

