-- ==== Sys2Proof/Decode.lean ====
section
/-! DEFINITION. The input word's fields, the legality test, the decoder and the encoder (R60 to R63, R72, R73). -/

namespace Sys2Proof

/-- OP, bits 15:12 (R60). -/
def opField (w : Word) : BitVec 4 := w.extractLsb' 12 4

/-- RSV, bits 11:8 (R60). -/
def rsvField (w : Word) : BitVec 4 := w.extractLsb' 8 4

/-- D, bits 7:0 (R60). -/
def dField (w : Word) : Byte := w.extractLsb' 0 8

/-- `legal(w)` of R62, its three conditions as written there. -/
def legal (w : Word) : Bool :=
  (decide (1 ≤ (opField w).toNat) && decide ((opField w).toNat ≤ 6))
    && decide (rsvField w = 0#4)
    && (decide ((opField w).toNat = 3) || decide (dField w = 0x00#8))

/-- The legal words one by one (R62, R63): 256 DATA words and five others. -/
def legalWords : List Word :=
  [0x1000#16, 0x2000#16, 0x4000#16, 0x5000#16, 0x6000#16]
    ++ (List.range 256).map (fun d => 0x3000#16 ||| BitVec.ofNat 16 d)

/-- Why a word is no instruction (R72). The step turns each of these into the ILLEGAL fault (R161) or, in ERR,
into a discard (R167). -/
inductive DecodeError where
  /-- OP is 0x0 or 0x7..0xF -/
  | reservedOp
  /-- RSV is not 0 -/
  | reservedBits
  /-- D is not 0 on a word other than DATA -/
  | operandNotZero
deriving DecidableEq, Repr

/-- A word of an instruction without operand: D must be 0x00 (R60, R62). -/
def withoutOperand (w : Word) (i : Instr) : Except DecodeError Instr :=
  if dField w = 0x00#8 then .ok i else .error .operandNotZero

/-- The decoder: total on 16-bit words, one instruction or one named reason (R63, R72, R73). -/
def decode (w : Word) : Except DecodeError Instr :=
  if rsvField w ≠ 0#4 then .error .reservedBits
  else if opField w = 0x1#4 then withoutOperand w .csumBegin
  else if opField w = 0x2#4 then withoutOperand w .frameBegin
  else if opField w = 0x3#4 then .ok (.data (dField w))
  else if opField w = 0x4#4 then withoutOperand w .endOp
  else if opField w = 0x5#4 then withoutOperand w .abort
  else if opField w = 0x6#4 then withoutOperand w .status
  else .error .reservedOp

/-- The opcode map of R63. -/
def opcode : Instr → BitVec 4
  | .csumBegin => 0x1#4
  | .frameBegin => 0x2#4
  | .data _ => 0x3#4
  | .endOp => 0x4#4
  | .abort => 0x5#4
  | .status => 0x6#4

/-- The D field of an instruction: DATA's byte, 0x00 for every other (R60, R61). -/
def operandByte : Instr → Byte
  | .csumBegin => 0x00#8
  | .frameBegin => 0x00#8
  | .data d => d
  | .endOp => 0x00#8
  | .abort => 0x00#8
  | .status => 0x00#8

/-- The encoder: OP, RSV = 0000 and D joined into one word, bit 15 first (R60). -/
def encode (i : Instr) : Word := opcode i ++ 0#4 ++ operandByte i

/-- The word the opcode table's numbering gives: its `nbits` low bits, every bit above them 0. A word moves whole
and no byte order applies to it (R44), so laying it out and reading it back changes nothing. -/
def tableWord (nbits w : Nat) : Word := BitVec.ofNat 16 (w % 2 ^ nbits)

/-- The decoder's answer on a table row's bits. An instruction is exactly one 16-bit word (R73), so more than 16
bits are none (DESIGN CHOICE, log 10). -/
def decodeTableWord (nbits w : Nat) : Option Instr :=
  if nbits ≤ 16 then (decode (tableWord nbits w)).toOption else none

end Sys2Proof
end

