-- ==== Sys2Proof/Machine/Ports.lean ====
section
/-! DEFINITION. The two ports as the outside drives them: the consumer taking output words, and the host presenting
words (R191, R195). -/

namespace Sys2Proof.Machine

/-- The consumer takes the `n` oldest outstanding output words (all of them if there are fewer). -/
def takeOutput (n : Nat) (s : State) : State :=
  { s with pending := s.pending.drop n, taken := s.taken ++ s.pending.take n }

/-- How many outstanding words the consumer takes at a step past the end of its list: all of them, or none. -/
def restTake (s : State) : Nat :=
  match s.consumerRest with
  | .takesAll => s.pending.length
  | .takesNone => 0

/-- The consumer's part of one step: it takes as many words as its list says, and past the list's end every word
outstanding, or none for ever if it has stopped (R195, R196 row 5; DESIGN CHOICE, log 3). -/
def drain (s : State) : State :=
  match s.consumer with
  | [] => takeOutput (restTake s) s
  | n :: ns => takeOutput n { s with consumer := ns }

/-- The input side with `es` still to come. -/
def setInput (es : List Event) (s : State) : State := { s with input := es }

/-- The host presents `w` next, with no output word of an earlier step outstanding, so that nothing holds it off
(R195). -/
def presentNext (w : Word) (s : State) : State :=
  setInput (Event.word w :: s.input) (takeOutput s.pending.length s)

end Sys2Proof.Machine
end

