-- ==== Sys2Proof/Machine/Cycle.lean ====
section
/-! DEFINITION. One step of the machine: accepting a word (R70), hold-off (R195), reset (R190, R191) and the waiting
between them (R180). -/

namespace Sys2Proof.Machine

/-- Count the word just accepted, once it has had its effect. -/
def counted (o : Host.Outcome State Fault Refusal) : Host.Outcome State Fault Refusal :=
  match o with
  | .next s => .next (countWord s)
  | .fault r => .fault r
  | .refused r => .refused r

/-- The step function of R70 on one accepted word: a legal word is executed, an illegal one is the block's ILLEGAL
fault or a discard, never a refusal. -/
def acceptWord (w : Word) (s : State) : Host.Outcome State Fault Refusal :=
  match decode w with
  | .ok i => counted (exec i s)
  | .error _ => counted (.next (takeIllegal s))

/-- What the input side does to a state whose consumer has had its turn. Nothing presented: the state stays (R180,
R195; DEDUCED, log 5). rst: the block is reset (R190); the word presented meanwhile is not accepted (R191; DEDUCED,
log 7). A word: refused by a block that was never reset (R192), held off while output words are outstanding, else
accepted (R195). -/
def inputSide (s : State) : Host.Outcome State Fault Refusal :=
  match s.input with
  | [] => .next s
  | .rst _ :: rest => .next (resetBlock (setInput rest s))
  | .word w :: rest =>
    if s.resetDone = true then
      if s.pending = [] then acceptWord w (setInput rest s) else .next s
    else .refused .beforeFirstReset

/-- One step: the consumer takes what it takes, then the input side moves (DESIGN CHOICE, log 9). -/
def cycle (s : State) : Host.Outcome State Fault Refusal := inputSide (drain s)

end Sys2Proof.Machine
end

