-- ==== Sys2Proof/Machine/Step.lean ====
section
/-! DEFINITION. The step under its fixed name, and the placing of a word where the next step finds it. -/

namespace Sys2Proof.Machine

/-- One step of the machine (R12, R70, R190, R195). -/
def step (s : State) : Host.Outcome State Fault Refusal := cycle s

/-- The host presents the table word `w` as the very next word (DESIGN CHOICE, log 2). Nothing holds it off: the
consumer has taken every outstanding output word. -/
def State.withFetchWord (s : State) (nbits w : Nat) : State := presentNext (tableWord nbits w) s

end Sys2Proof.Machine
end

