-- ==== Sys2Proof/Machine/Assembler.lean ====
section
/-! DEFINITION. CKF assembly (R74, R75): lines to words, and text to lines. Text is a list of characters. -/

namespace Sys2Proof.Machine

/-- The words `CSUM b0, …, bn-1` expands to (R75). -/
def csumCall (bs : List Byte) : List Instr := Instr.csumBegin :: bs.map Instr.data ++ [Instr.endOp]

/-- The words `FRAME p0, …, pn-1` expands to (R75). -/
def frameCall (ps : List Byte) : List Instr := Instr.frameBegin :: ps.map Instr.data ++ [Instr.endOp]

/-- The words of a line whose numerals are in range. -/
def lineWords : AsmLine → List Word
  | .csumBegin => [encode .csumBegin]
  | .frameBegin => [encode .frameBegin]
  | .data n => [encode (.data (BitVec.ofNat 8 n))]
  | .endOp => [encode .endOp]
  | .abort => [encode .abort]
  | .status => [encode .status]
  | .word n => [BitVec.ofNat 16 n]
  | .csum bs => (csumCall (bs.map (BitVec.ofNat 8))).map encode
  | .frame ps => (frameCall (ps.map (BitVec.ofNat 8))).map encode

/-- The words a line assembles to; `none` is an assembly error: a value outside its range is never truncated (R74). -/
def assembleLine (l : AsmLine) : Option (List Word) := if l.wf then some (lineWords l) else none

/-- A space or a tab (DESIGN CHOICE, log 11). -/
def isBlank (c : Char) : Bool := c == ' ' || c == '\t'

/-- A text without the blanks at its two ends. -/
def trimBlanks (t : List Char) : List Char := ((t.dropWhile isBlank).reverse.dropWhile isBlank).reverse

/-- The value of a decimal digit. -/
def decDigit (c : Char) : Option Nat :=
  if '0'.toNat ≤ c.toNat ∧ c.toNat ≤ '9'.toNat then some (c.toNat - '0'.toNat) else none

/-- The value of a hexadecimal digit, of either case (DESIGN CHOICE, log 11). -/
def hexDigit (c : Char) : Option Nat :=
  if 'a'.toNat ≤ c.toNat ∧ c.toNat ≤ 'f'.toNat then some (c.toNat - 'a'.toNat + 10)
  else if 'A'.toNat ≤ c.toNat ∧ c.toNat ≤ 'F'.toNat then some (c.toNat - 'A'.toNat + 10)
  else decDigit c

/-- The number a digit string stands for, most significant digit first, on top of `acc`. -/
def digitsFrom (base : Nat) (digit : Char → Option Nat) (acc : Nat) : List Char → Option Nat
  | [] => some acc
  | c :: cs =>
    match digit c with
    | some d => digitsFrom base digit (acc * base + d) cs
    | none => none

/-- A numeral of R74: `0x` and hexadecimal digits, or decimal digits; at least one digit. -/
def parseNumeral : List Char → Option Nat
  | '0' :: 'x' :: c :: cs => digitsFrom 16 hexDigit 0 (c :: cs)
  | c :: cs => digitsFrom 10 decDigit 0 (c :: cs)
  | [] => none

/-- The pieces of a text between its commas; one piece, the empty one, for the empty text. -/
def splitCommas : List Char → List (List Char)
  | [] => [[]]
  | c :: cs =>
    if c = ',' then [] :: splitCommas cs
    else
      match splitCommas cs with
      | p :: ps => (c :: p) :: ps
      | [] => [[c]]

/-- The operands of a line: nothing for blank text, else the numerals between the commas. -/
def parseOperands (t : List Char) : Option (List Nat) :=
  if trimBlanks t = [] then some [] else (splitCommas t).mapM (fun p => parseNumeral (trimBlanks p))

/-- A name as written in R74, or the same in lower case (DESIGN CHOICE, log 11: no mixed case). -/
def isName (t name : List Char) : Bool := decide (t = name) || decide (t = name.map Char.toLower)

/-- The line a name and its operands spell (R74, R75). -/
def parseStatement (name : List Char) (ops : List Nat) : Option AsmLine :=
  if isName name ['C', 'S', 'U', 'M', '.', 'B', 'E', 'G', 'I', 'N'] then (if ops = [] then some .csumBegin else none)
  else if isName name ['F', 'R', 'A', 'M', 'E', '.', 'B', 'E', 'G', 'I', 'N'] then
    (if ops = [] then some .frameBegin else none)
  else if isName name ['D', 'A', 'T', 'A'] then (match ops with | [n] => some (.data n) | _ => none)
  else if isName name ['E', 'N', 'D'] then (if ops = [] then some .endOp else none)
  else if isName name ['A', 'B', 'O', 'R', 'T'] then (if ops = [] then some .abort else none)
  else if isName name ['S', 'T', 'A', 'T', 'U', 'S'] then (if ops = [] then some .status else none)
  else if isName name ['.', 'w', 'o', 'r', 'd'] then (match ops with | [n] => some (.word n) | _ => none)
  else if isName name ['C', 'S', 'U', 'M'] then some (.csum ops)
  else if isName name ['F', 'R', 'A', 'M', 'E'] then some (.frame ops)
  else none

/-- One line of text: what stands after `;` is a comment, and a line with nothing before it is no instruction (R74;
DESIGN CHOICE, log 11). `none` is an assembly error. -/
def parseLine (t : List Char) : Option (List AsmLine) :=
  let code := trimBlanks (t.takeWhile (fun c => c != ';'))
  if code = [] then some []
  else do
    let ops ← parseOperands (code.dropWhile (fun c => !isBlank c))
    let l ← parseStatement (code.takeWhile (fun c => !isBlank c)) ops
    pure [l]

/-- The words of a list of assembly lines, in order; the assembler neither checks nor adds operation structure (R74). -/
def assemble (ls : List AsmLine) : Option (List Word) := (ls.mapM assembleLine).map List.flatten

/-- The words of a program text, line by line (R74). -/
def assembleText (lines : List (List Char)) : Option (List Word) :=
  (lines.mapM parseLine).bind (fun ls => assemble ls.flatten)

end Sys2Proof.Machine
end

