-- ==== Sys2Proof/Machine/Checksum.lean ====
section
/-! DEFINITION. The two functions the block computes, as the source states them: the checksum of a buffer (R100) and
the packet of a payload (R120, R121). No instruction calls them; the instructions compute them byte by byte, and the
statements compare the two. -/

namespace Sys2Proof.Machine

/-- `sum(s)`: the integer sum of the bytes, with no wrap-around; 0 for the empty sequence (R10). -/
def byteSum (s : List Byte) : Nat := (s.map BitVec.toNat).sum

/-- The low 8 bits of the complement of an integer sum, with `~` the complement of an unbounded integer (DEDUCED: R101
shows that the width does not matter; log 15). -/
def complementLow8 (sum : Nat) : Byte := BitVec.ofInt 8 (~~~(sum : Int))

/-- `cks(b) = (~sum(b[2:])) & 0xFF` for `len(b) ≥ 2`; a shorter buffer has no checksum (R100). -/
def cks (b : List Byte) : Option Byte :=
  if 2 ≤ b.length then some (complementLow8 (byteSum (b.drop 2))) else none

/-- The header HDR (R120). -/
def hdr : List Byte := [0xFF#8, 0xFF#8]

/-- `pkt(p) = HDR ++ p ++ [cks(HDR ++ p)]` (R121); the checksum is there for every p, since HDR has two bytes (R122). -/
def pkt (p : List Byte) : List Byte := hdr ++ p ++ (cks (hdr ++ p)).toList

/-- The 8-bit accumulation of a byte sequence, the value ACC follows (R22). -/
def accSum (s : List Byte) : Byte := s.foldl addByte 0#8

end Sys2Proof.Machine
end

