-- ==== Sys2Proof/Machine/Invariant.lean ====
section
/-! DEFINITION. The well-formedness of states: R26's table for the block, and what the ports and the history keep. -/

namespace Sys2Proof.Machine

/-- R26, the row of the block's own mode, for a block built with MAX_PAYLOAD = `max`. -/
def blockWf (max : Nat) (b : Block) : Bool :=
  match b.mode with
  | .idle => decide (b.acc = 0#8) && decide (b.skip = 0#2) && decide (b.buf = []) && decide (b.errCode = 0#4)
  | .csum =>
    (decide (b.skip = 0#2) || (decide (b.skip.toNat ≤ 2) && decide (b.acc = 0#8)))
      && decide (b.buf = []) && decide (b.errCode = 0#4)
  | .frame =>
    decide (b.acc = accSum b.buf) && decide (b.skip = 0#2) && decide (b.buf.length ≤ max) && decide (b.errCode = 0#4)
  | .err =>
    decide (b.acc = 0#8) && decide (b.skip = 0#2) && decide (b.buf = [])
      && (decide (1 ≤ b.errCode.toNat) && decide (b.errCode.toNat ≤ 4))

/-- A word CKF may emit (R65): the consumer can read it. -/
def emittable (w : Word) : Bool := (readOutWord w).isSome

/-- The fault history: its indexes rise and lie below the count of accepted words (R168, R181), and while MODE is ERR
its last entry is the fault that ERR_CODE shows (R25). -/
def historyWf (s : State) : Bool :=
  decide ((s.history.map FaultRecord.index).Pairwise (· < ·))
    && s.history.all (fun r => decide (r.index < s.accepted))
    && (!decide (s.block.mode = .err)
      || decide ((s.history.getLast?).map (fun r => r.code.bits) = some s.block.errCode))

/-- A state that a run can be in: MAX_PAYLOAD at least 1 (R7), the block reset once and in its mode's row of R26, only
words of R65 on the output side, and a history in order. -/
def State.wf (s : State) : Bool :=
  s.cfg.wf && s.resetDone && blockWf s.cfg.maxPayload s.block && (output s).all emittable && historyWf s

/-- A state a run may start from: MAX_PAYLOAD at least 1, and a block that rst has put, or that steps from there can
put, where it is (R192). Only the spec's own state and its parameter are asked: what the ports and the fault history
hold at the start is not (DESIGN CHOICE, log 17), so a run may start at a block in ERR with an empty history. -/
def startable (s : State) : Bool := s.cfg.wf && s.resetDone && blockWf s.cfg.maxPayload s.block

/-- A block at power-up: any values whatever in its five fields, and rst not asserted yet (R192, K8). -/
def powerUp (c : Config) (b : Block) : State := { State.resetWith c with block := b, resetDone := false }

end Sys2Proof.Machine
end

