-- ==== Sys2Proof/Machine/Run.lean ====
section
/-! DEFINITION. Runs of the machine: their start (R192), their steps, their end and what is observed of them (R199). -/

namespace Sys2Proof.Machine

/-- `k` steps of the machine, stopping at the first refusal; rst is one of its events. -/
def steps : Nat → State → Host.Outcome State Fault Refusal
  | 0, s => .next s
  | k + 1, s =>
    match step s with
    | .next t => steps k t
    | .fault r => .fault r
    | .refused r => .refused r

/-- The words of `ws` accepted one after another, with no other word in between and none of the output taken yet: the
sequence the rules speak of, apart from when the consumer takes what. -/
def acceptAll : List Word → State → Host.Outcome State Fault Refusal
  | [], s => .next s
  | w :: ws, s =>
    match acceptWord w s with
    | .next t => acceptAll ws t
    | .fault r => .fault r
    | .refused r => .refused r

/-- The start of a run: a model starts only where reset, or steps from it, can have put the block, and refuses any
other start state (R192; DEDUCED, log 13). The fault history is taken as it stands (DESIGN CHOICE, log 17). -/
def start (s : State) : Host.Outcome State Fault Refusal :=
  if startable s then .next s else .refused .unreachableStart

/-- The host presents the words of `ws`, one after another, and then nothing more. -/
def presenting (ws : List Word) (s : State) : State := setInput (ws.map Event.word) s

/-- The words of an event list, in order, those presented while rst is asserted among them. -/
def wordsLeft : List Event → List Word
  | [] => []
  | .word w :: es => w :: wordsLeft es
  | .rst p :: es => p.toList ++ wordsLeft es

/-- The run is over: every word has been accepted and every output word handed to the consumer (R199). The run's words
are all those of the event list (DESIGN CHOICE, log 18). -/
def runFinished (s : State) : Bool := decide (wordsLeft s.input = []) && decide (s.pending = [])

/-- rst comes next at the input side. -/
def resetNext (s : State) : Bool :=
  match s.input with
  | .rst _ :: _ => true
  | .word _ :: _ => false
  | [] => false

/-- The run goes no further: it is over, or reset cuts it short here (R199). -/
def runEnded (s : State) : Bool := runFinished s || resetNext s

/-- At most `k` steps of a run, which ends where it is over or where rst comes (R199). `steps` goes on across rst, as
the machine does; a run does not. -/
def runSteps : Nat → State → Host.Outcome State Fault Refusal
  | 0, s => .next s
  | k + 1, s =>
    if runEnded s then .next s
    else
      match step s with
      | .next t => runSteps k t
      | .fault r => .fault r
      | .refused r => .refused r

/-- At most `k` steps of a run that starts at `s` (R192, R199). -/
def runFrom (k : Nat) (s : State) : Host.Outcome State Fault Refusal :=
  match start s with
  | .next t => runSteps k t
  | .fault r => .fault r
  | .refused r => .refused r

/-- The output words, in order, of a run from `s₀` that stands at `s`: what was emitted before the run is not among
them (DESIGN CHOICE, log 18). -/
def runOutput (s₀ s : State) : List Word := (output s).drop (output s₀).length

/-- What is observed of a run that has ended (R199). -/
inductive RunEnd where
  /-- the run is over: the final block state and the output words -/
  | finished (block : Block) (words : List Word)
  /-- the run was cut short by reset: the output words emitted before it; R199 gives no final state -/
  | cutShort (words : List Word)
deriving DecidableEq, Repr

/-- The observation of a run from `s₀` that stands at `s`; `none` while it has not ended (R199). -/
def observation (s₀ s : State) : Option RunEnd :=
  if runFinished s then some (.finished s.block (runOutput s₀ s))
  else if resetNext s then some (.cutShort (runOutput s₀ s))
  else none

end Sys2Proof.Machine
end

