-- ==== Sys2Proof/Safety.lean ====
section
/-! DEFINITION. What counts as a safe run, in the terms claims use: fault-free by the history (R181, R199), and the
inputs on which the spec promises that (R196). -/

namespace Sys2Proof

open Sys2Proof.Machine

/-- A run is fault-free when the fault history is empty at its end (R181, R199); ERR_CODE is not asked, since ABORT
clears it. A history that is empty at the end says that no fault was taken since the run's start, which may itself be a
block in ERR (DESIGN CHOICE, log 17). -/
def faultFree (s : State) : Bool := decide (s.history = [])

/-- A call of one of the source's two functions, as a host presents it (R75). -/
inductive SourceCall where
  /-- `checksum(b)` -/
  | checksum (b : List Byte)
  /-- `buildPacket(p)` -/
  | buildPacket (p : List Byte)
deriving DecidableEq, Repr

/-- The instructions that spell a call (R75). -/
def SourceCall.instrs : SourceCall → List Instr
  | .checksum b => csumCall b
  | .buildPacket p => frameCall p

/-- The call is within the documented range: at least two bytes to a checksum, at most MAX_PAYLOAD to a packet
(R196 rows 2 and 3). -/
def SourceCall.inRange (max : Nat) : SourceCall → Bool
  | .checksum b => decide (2 ≤ b.length)
  | .buildPacket p => decide (p.length ≤ max)

/-- The output words the source's function value becomes (R107, R126). -/
def SourceCall.response : SourceCall → List Word
  | .checksum b => ((cks b).map resultWord).toList
  | .buildPacket p => (pkt p).dropLast.map pktWord ++ ((pkt p).getLast?.map pktLastWord).toList

/-- The safety predicate on outcomes: the machine went on, and its history holds no fault (`faultFree`, log 17). -/
def safeOutcome (o : Host.Outcome State Fault Refusal) : Bool :=
  match o with
  | .next s => faultFree s
  | .fault _ => false
  | .refused _ => false

end Sys2Proof
end

