-- ==== Sys2Proof/Certificates/Slice0/Obligations.lean ====
section
/-! DEFINITION. The statements for the provers. Every one is about the machine; none is about a particular program. -/

open Sys2Proof Sys2Proof.Machine

/-! ### Encoding and decoding -/

/-- 30_encoding.md sections 1 to 3: every well-formed instruction, with every value of its operand, decodes from its
own word. -/
def Obligations.DecodeOfEncodeIsTheInstruction : Prop :=
  ∀ i : Instr, i.wf = true → decode (encode i) = .ok i

/-- 30_encoding.md section 4: a word has one meaning and an instruction one spelling; what decodes is encoded back to
the very same word. -/
def Obligations.EncodeOfDecodeIsTheWord : Prop :=
  ∀ (w : Word) (i : Instr), decode w = .ok i → encode i = w

/-- 30_encoding.md section 1: the decoder accepts a word exactly when the three conditions hold ("A word w is legal
exactly when all three of these hold"); and "There are 261 legal words", the 256 DATA words and five others, which the
spec marks as its own inference. -/
def Obligations.DecoderAcceptsExactlyTheLegalWords : Prop :=
  (∀ w : Word, (∃ i, decode w = .ok i) ↔
    ((1 ≤ (opField w).toNat ∧ (opField w).toNat ≤ 6) ∧ rsvField w = 0#4
      ∧ ((opField w).toNat = 3 ∨ dField w = 0x00#8)))
  ∧ (∀ w : Word, legal w = true ↔ ∃ i, decode w = .ok i)
  ∧ (∀ w : Word, legal w = true ↔
      ((0x3000 ≤ w.toNat ∧ w.toNat ≤ 0x30FF) ∨ w = 0x1000#16 ∨ w = 0x2000#16 ∨ w = 0x4000#16 ∨ w = 0x5000#16
        ∨ w = 0x6000#16))
  ∧ (∀ w : Word, legal w = true ↔ w ∈ legalWords) ∧ legalWords.Nodup ∧ legalWords.length = 261

/-- The words of 95_test_vectors.md section 2.1: each legal one decodes to the instruction its row names, each illegal
one to none. -/
def Obligations.WrittenOutWordsDecode : Prop :=
  decode 0x1000#16 = .ok .csumBegin ∧ decode 0x2000#16 = .ok .frameBegin
  ∧ decode 0x3000#16 = .ok (.data 0x00#8) ∧ decode 0x30FF#16 = .ok (.data 0xFF#8)
  ∧ decode 0x4000#16 = .ok .endOp ∧ decode 0x5000#16 = .ok .abort ∧ decode 0x6000#16 = .ok .status
  ∧ [0x0000#16, 0x1001#16, 0x1100#16, 0x3100#16, 0x3F5A#16, 0x4080#16, 0x6100#16, 0x7000#16, 0x8000#16,
      0xFFFF#16].all (fun w => (decode w).toOption.isNone) = true

/-- 30_encoding.md section 2: the consumer reads back every word CKF builds, and reads nothing else: a word it can
read is one of the words of R65's table. -/
def Obligations.OutputWordsReadBack : Prop :=
  (∀ c : Byte, readOutWord (0x1100#16 ||| zext16 c) = some (.result c))
  ∧ (∀ b : Byte, readOutWord (0x2000#16 ||| zext16 b) = some (.pkt false b))
  ∧ (∀ c : Byte, readOutWord (0x2100#16 ||| zext16 c) = some (.pkt true c))
  ∧ (∀ code : FaultCode, readOutWord (faultWord code) = some (.fault code))
  ∧ (∀ (max : Nat) (b : Block), blockWf max b = true → readOutWord (statWord b) = some (.stat (statusByte b)))
  ∧ (∀ (w : Word) (m : OutMsg), readOutWord w = some m →
      (∃ c : Byte, m = .result c ∧ w = 0x1100#16 ||| zext16 c)
      ∨ (∃ b : Byte, m = .pkt false b ∧ w = 0x2000#16 ||| zext16 b)
      ∨ (∃ c : Byte, m = .pkt true c ∧ w = 0x2100#16 ||| zext16 c)
      ∨ (∃ code, m = .fault code ∧ w ∈ [0x3101#16, 0x3102#16, 0x3103#16, 0x3104#16] ∧ w = faultWord code)
      ∨ (∃ b ∈ statusValues, m = .stat b ∧ w = 0x4100#16 ||| zext16 b))

/-! ### The step: accepting a word, waiting, holding off, reset -/

/-- 30_encoding.md section 3 and 70_reset_and_hazards.md section 3: once the consumer has had its turn and nothing is
outstanding, a step on a presented word that decodes to `i` is `exec i` on the state with that word taken off the
input, with the count of accepted words raised after it. -/
def Obligations.StepRunsTheDecodedInstruction : Prop :=
  ∀ (s : State) (w : Word) (rest : List Event) (i : Instr),
    s.resetDone = true → s.input = .word w :: rest → (drain s).pending = [] → decode w = .ok i →
    step s = counted (exec i (setInput rest (drain s)))
    ∧ (∀ t, exec i (setInput rest (drain s)) = .next t → step s = .next { t with accepted := t.accepted + 1 })

/-- The consumer's turn at the head of a step (model's choice, logs 3 and 9): it takes as many outstanding
words as the head of its list says, and past the list's end every one, or none for ever if it has stopped; it changes
nothing else and loses nothing. -/
def Obligations.ConsumerTurnMovesOutput : Prop :=
  (∀ s : State, s.consumer = [] → s.consumerRest = .takesAll →
      drain s = { s with pending := [], taken := s.taken ++ s.pending })
  ∧ (∀ s : State, s.consumer = [] → s.consumerRest = .takesNone → drain s = s)
  ∧ (∀ (s : State) (n : Nat) (ns : List Nat), s.consumer = n :: ns →
      drain s = { s with consumer := ns, pending := s.pending.drop n, taken := s.taken ++ s.pending.take n })
  ∧ (∀ s : State, output (drain s) = output s)

/-- R70: on an accepted word, ERR is asked first and lets only 0x5000 and 0x6000 act; then legality; then the dispatch
on OP. Every word in every state has one outcome, a new state. -/
def Obligations.StepFunctionChecksErrThenLegality : Prop :=
  (∀ (s : State) (w : Word), s.block.mode = .err →
    acceptWord w s = counted
      (if w = 0x5000#16 then exec .abort s else if w = 0x6000#16 then exec .status s else .next s))
  ∧ (∀ (s : State) (w : Word), s.block.mode ≠ .err → legal w = false →
      acceptWord w s = counted (.next (raiseFault .illegal s)))
  ∧ (∀ (s : State) (w : Word), s.block.mode ≠ .err → legal w = true →
      ∃ i, opcode i = opField w ∧ operandByte i = dField w ∧ acceptWord w s = counted (exec i s))
  ∧ (∀ (s : State) (w : Word), ∃ t new, acceptWord w s = .next t ∧ t.pending = s.pending ++ new)

/-- 30_encoding.md section 3: no instruction stops the machine in any state. -/
def Obligations.EveryInstructionAnswersNext : Prop :=
  ∀ (i : Instr) (s : State), ∃ t, exec i s = .next t

/-- 70_reset_and_hazards.md section 3: while the consumer has not taken every output word of an earlier step, the word
presented is held off: it stays presented and the block stays as it is. What the consumer takes in that step, and that
its turn comes first (`drain s`), is the model's choice (logs 3 and 9). -/
def Obligations.OutstandingOutputHoldsTheWordOff : Prop :=
  ∀ (s : State) (w : Word) (rest : List Event),
    s.resetDone = true → s.input = .word w :: rest → (drain s).pending ≠ [] →
    ∃ t, step s = .next t ∧ t = drain s ∧ t.block = s.block ∧ t.input = s.input ∧ t.accepted = s.accepted
      ∧ t.history = s.history ∧ output t = output s

/-- 70_reset_and_hazards.md section 3 and 60_exceptions.md section 4: while nothing is presented, nothing but the
consumer's taking happens (DEDUCED, log 5; what the consumer takes, `drain s`, is the model's choice, logs 3 and 9). -/
def Obligations.NothingPresentedChangesNothing : Prop :=
  ∀ s : State, s.input = [] →
    step s = .next (drain s) ∧ (drain s).block = s.block ∧ (drain s).cfg = s.cfg ∧ (drain s).resetDone = s.resetDone
      ∧ (drain s).accepted = s.accepted ∧ (drain s).history = s.history ∧ output (drain s) = output s
      ∧ (s.pending = [] → s.consumer = [] → drain s = s)

/-- R190: rst puts every field to its reset value, emits nothing, and lowers err_o, in any state of the block, one
never reset included; and reset, END and ABORT are the only ways from another state to this one. -/
def Obligations.ResetRestoresEveryField : Prop :=
  (∀ (s : State) (p : Option Word) (rest : List Event), s.input = .rst p :: rest →
    ∃ t, step s = .next t
      ∧ t.block = { mode := .idle, acc := 0x00#8, skip := 0#2, buf := [], errCode := 0#4 }
      ∧ t.resetDone = true ∧ output t = output s ∧ errO t.block = false ∧ t.cfg = s.cfg)
  ∧ (∀ s t : State, s.block ≠ Block.idle → step s = .next t → t.block = Block.idle →
      (∃ p rest, s.input = .rst p :: rest) ∨ (∃ rest, s.input = .word 0x4000#16 :: rest)
        ∨ (∃ rest, s.input = .word 0x5000#16 :: rest))

/-- 10_state.md section 3: the reset value of every field, for every MAX_PAYLOAD, and the STATUS byte they give; before
the first reset a block may hold anything (the form is log 4). That `State.reset` is built with MAX_PAYLOAD 256 is
log 1. -/
def Obligations.ResetValueOfEveryField : Prop :=
  (∀ c : Config, (State.resetWith c).block.mode = .idle ∧ (State.resetWith c).block.acc = 0x00#8
    ∧ (State.resetWith c).block.skip = 0#2 ∧ (State.resetWith c).block.buf = []
    ∧ (State.resetWith c).block.errCode = 0#4 ∧ (State.resetWith c).cfg = c
    ∧ statusByte (State.resetWith c).block = 0x00#8 ∧ errO (State.resetWith c).block = false)
  ∧ State.reset.block = (State.resetWith Config.reference).block
  ∧ (∀ (c : Config) (b : Block), (powerUp c b).block = b ∧ (powerUp c b).resetDone = false)

/-- 70_reset_and_hazards.md section 1 (the form is the model's choice, logs 4 and 13): a word presented to a block that
was never reset is refused, whatever the block holds, and no run starts there; after rst it runs as any other. -/
def Obligations.NeverResetBlockIsRefused : Prop :=
  (∀ (s : State) (w : Word) (rest : List Event), s.resetDone = false → s.input = .word w :: rest →
    step s = .refused .beforeFirstReset)
  ∧ (∀ s : State, s.resetDone = false → start s = .refused .unreachableStart)
  ∧ (∀ (c : Config) (b : Block) (k : Nat), runFrom k (powerUp c b) = .refused .unreachableStart)
  ∧ (∀ (c : Config) (b : Block) (p : Option Word), ∃ t,
      step (setInput [.rst p] (powerUp c b)) = .next t ∧ t.block = (State.resetWith c).block ∧ t.resetDone = true)

/-- Log 2: the placed word is the one the very next step runs. -/
def Obligations.PlacedWordIsRunNext : Prop :=
  ∀ (s : State) (i : Instr), s.resetDone = true →
    ∃ s1 : State, step (s.withFetchWord 16 (encode i).toNat) = counted (exec i s1)
      ∧ s1.block = s.block ∧ s1.cfg = s.cfg ∧ s1.input = s.input ∧ s1.accepted = s.accepted ∧ s1.history = s.history
      ∧ s1.pending = [] ∧ output s1 = output s

/-! ### Faults -/

/-- R165: the whole effect of a fault entry on the block and the output port; nothing is saved. (The history entry
that the model keeps beside it is stated in `FaultHistoryRecordsEveryEntry`.) -/
def Obligations.FaultEntryDropsTheOperation : Prop :=
  ∀ (code : FaultCode) (s : State),
    (raiseFault code s).block = { mode := .err, acc := 0x00#8, skip := 0#2, buf := [], errCode := code.bits }
    ∧ (raiseFault code s).pending = s.pending ++ [0x3100#16 ||| code.bits.setWidth 16]
    ∧ { raiseFault code s with block := s.block, pending := s.pending, history := s.history } = s

/-- 60_exceptions.md section 1: the codes and the FAULT words of the four faults, and the codes that name none. -/
def Obligations.FaultCodesAndTheirWords : Prop :=
  (FaultCode.illegal.bits = 1#4 ∧ faultWord .illegal = 0x3101#16)
  ∧ (FaultCode.sequence.bits = 2#4 ∧ faultWord .sequence = 0x3102#16)
  ∧ (FaultCode.short.bits = 3#4 ∧ faultWord .short = 0x3103#16)
  ∧ (FaultCode.overflow.bits = 4#4 ∧ faultWord .overflow = 0x3104#16)
  ∧ (∀ c : BitVec 4, (FaultCode.ofBits c).isSome = true ↔ (1 ≤ c.toNat ∧ c.toNat ≤ 4))
  ∧ (∀ c : BitVec 4, ∀ f, FaultCode.ofBits c = some f ↔ f.bits = c)

/-- R161: any illegal word outside ERR is the ILLEGAL fault, in ERR it is discarded. -/
def Obligations.IllegalWordFaultsOutsideErr : Prop :=
  (∀ (s : State) (w : Word), legal w = false → s.block.mode ≠ .err →
    acceptWord w s = .next (countWord (raiseFault .illegal s)))
  ∧ (∀ (s : State) (w : Word), legal w = false → s.block.mode = .err → acceptWord w s = .next (countWord s))
  ∧ [0x0000#16, 0x7000#16, 0xF0FF#16, 0x1001#16, 0x3100#16].all (fun w => !legal w) = true

/-- R162: the legal words that do not fit the mode, and the two instructions that fit every mode. -/
def Obligations.MisplacedWordFaultsSequence : Prop :=
  (∀ s : State, s.block.mode = .csum ∨ s.block.mode = .frame →
    exec .csumBegin s = .next (raiseFault .sequence s) ∧ exec .frameBegin s = .next (raiseFault .sequence s)
    ∧ (raiseFault .sequence s).pending = s.pending ++ [0x3102#16]
    ∧ (raiseFault .sequence s).block =
        { mode := .err, acc := 0x00#8, skip := 0#2, buf := [], errCode := 2#4 })
  ∧ (∀ (s : State) (d : Byte), s.block.mode = .idle →
      exec (.data d) s = .next (raiseFault .sequence s) ∧ exec .endOp s = .next (raiseFault .sequence s))
  ∧ (∀ s : State, ∃ t u, exec .abort s = .next t ∧ t.history = s.history
      ∧ exec .status s = .next u ∧ u.history = s.history)

/-- R167: in ERR, ABORT clears, STATUS reports, and every other word, legal or not, is accepted and lost; ERR_CODE
stays until ABORT or reset. -/
def Obligations.ErrModeDiscardsAllButAbortAndStatus : Prop :=
  (∀ (s : State) (w : Word), s.block.mode = .err → w ≠ 0x5000#16 → w ≠ 0x6000#16 →
    acceptWord w s = .next { s with accepted := s.accepted + 1 })
  ∧ (∀ s : State, s.block.mode = .err →
      acceptWord 0x5000#16 s = .next { s with accepted := s.accepted + 1, block := Block.idle })
  ∧ (∀ s : State, s.block.mode = .err →
      acceptWord 0x6000#16 s = .next { s with
        accepted := s.accepted + 1
        pending := s.pending ++ [0x4100#16 ||| (s.block.errCode.setWidth 16 <<< 4) ||| 3#16] })
  ∧ (∀ s t : State, s.block.mode = .err → step s = .next t → t.block.errCode ≠ s.block.errCode →
      (∃ rest, s.input = .word 0x5000#16 :: rest) ∨ (∃ p rest, s.input = .rst p :: rest))

/-- R168: the checks in their order, and the one fault, if any, that a word gives. -/
def Obligations.WordGivesTheFirstFaultThatApplies : Prop :=
  (∀ (s : State) (w : Word), ∃ t, acceptWord w s = .next t ∧
    t.history.map FaultRecord.code = s.history.map FaultRecord.code ++
      (if s.block.mode = .err then []
       else if legal w = false then [.illegal]
       else if ((w = 0x1000#16 ∨ w = 0x2000#16) ∧ (s.block.mode = .csum ∨ s.block.mode = .frame))
           ∨ ((opField w = 3#4 ∨ w = 0x4000#16) ∧ s.block.mode = .idle) then
         [.sequence]
       else if w = 0x4000#16 ∧ s.block.mode = .csum ∧ s.block.skip ≠ 0#2 then
         [.short]
       else if opField w = 3#4 ∧ s.block.mode = .frame ∧ s.block.buf.length = s.cfg.maxPayload then
         [.overflow]
       else []))
  ∧ (∀ s : State, s.block.mode = .idle → acceptWord 0x3100#16 s = .next (countWord (raiseFault .illegal s)))

/-- 60_exceptions.md section 2, "Faults are precise" (which the spec marks as its own inference): a word that gives a
fault has no effect but the fault entry (and being counted), what was emitted before it stays, and the open operation
emits nothing: the one word added is the FAULT word. -/
def Obligations.FaultingWordHasOnlyTheFaultEntry : Prop :=
  ∀ (w : Word) (s t : State), acceptWord w s = .next t → t.history ≠ s.history →
    ∃ code, t = countWord (raiseFault code s) ∧ output t = output s ++ [faultWord code]
      ∧ kindField (faultWord code) = 3#4

/-- 60_exceptions.md section 2, "faults never nest and a second fault never overwrites the first" (which the spec
marks as its own inference): no fault is raised in ERR, so faults never nest and the first one's code stays while the
block is in ERR. -/
def Obligations.FaultsNeverNest : Prop :=
  ∀ s t : State, s.block.mode = .err → step s = .next t →
    t.history = s.history ∧ (t.block.mode = .err → t.block = s.block)

/-- 60_exceptions.md section 5 and logs 6 and 7: the fault history is never cleared, a step adds at most one entry, with
the index of its word, and adds one exactly when the block enters ERR; rst leaves it, counts no word, and the word
presented with it is lost. -/
def Obligations.FaultHistoryRecordsEveryEntry : Prop :=
  ∀ s t : State, step s = .next t →
    (t.history = s.history ∨ ∃ code, t.history = s.history ++ [{ code := code, index := s.accepted }])
    ∧ (t.history ≠ s.history ↔ (s.block.mode ≠ .err ∧ t.block.mode = .err))
    ∧ (∀ p rest, s.input = .rst p :: rest → t.history = s.history ∧ t.accepted = s.accepted ∧ t.input = rest)

/-- 42_control.md section 1: ABORT and reset are the only ways out of ERR. -/
def Obligations.OnlyAbortOrResetLeavesErr : Prop :=
  ∀ s t : State, s.block.mode = .err → step s = .next t → t.block.mode ≠ .err →
    t.block = Block.idle ∧
      ((∃ rest, s.input = .word 0x5000#16 :: rest) ∨ (∃ p rest, s.input = .rst p :: rest))

/-- R171: err_o is 1 exactly in ERR, rises with a fault entry's step and falls with ABORT or reset. -/
def Obligations.ErrOutputFollowsTheMode : Prop :=
  (∀ b : Block, errO b = true ↔ b.mode = .err)
  ∧ (∀ s t : State, step s = .next t → errO s.block = false →
      (errO t.block = true ↔ t.history ≠ s.history))
  ∧ (∀ s t : State, step s = .next t → errO s.block = true → errO t.block = false →
      (∃ rest, s.input = .word 0x5000#16 :: rest) ∨ (∃ p rest, s.input = .rst p :: rest))

/-! ### The instructions -/

/-- R104: CSUM.BEGIN. -/
def Obligations.CsumBeginOpensTheOperation : Prop :=
  (∀ s : State, s.block.mode = .idle →
    exec .csumBegin s = .next { s with
      block := { mode := .csum, acc := 0x00#8, skip := 2#2, buf := [], errCode := s.block.errCode } })
  ∧ (∀ s : State, s.block.mode = .csum ∨ s.block.mode = .frame →
      exec .csumBegin s = .next (raiseFault .sequence s))
  ∧ (∀ s : State, s.block.mode = .err → exec .csumBegin s = .next s)
  ∧ encode .csumBegin = 0x1000#16
  ∧ (∀ (s : State) (w : Word), opField w = 1#4 → w ≠ 0x1000#16 → s.block.mode ≠ .err →
      acceptWord w s = .next (countWord (raiseFault .illegal s)))

/-- R123: FRAME.BEGIN. -/
def Obligations.FrameBeginOpensTheOperation : Prop :=
  (∀ s : State, s.block.mode = .idle →
    exec .frameBegin s = .next { s with
      block := { mode := .frame, acc := 0x00#8, skip := 0#2, buf := [], errCode := s.block.errCode } })
  ∧ (∀ s : State, s.block.mode = .csum ∨ s.block.mode = .frame →
      exec .frameBegin s = .next (raiseFault .sequence s))
  ∧ (∀ s : State, s.block.mode = .err → exec .frameBegin s = .next s)
  ∧ encode .frameBegin = 0x2000#16
  ∧ (∀ (s : State) (w : Word), opField w = 2#4 → w ≠ 0x2000#16 → s.block.mode ≠ .err →
      acceptWord w s = .next (countWord (raiseFault .illegal s)))

/-- R105: DATA in CSUM mode; the sum is modulo 256. -/
def Obligations.CsumDataSkipsTwoThenCounts : Prop :=
  (∀ (s : State) (d : Byte), s.block.mode = .csum → 0 < s.block.skip.toNat →
    exec (.data d) s = .next { s with block := { s.block with skip := BitVec.ofNat 2 (s.block.skip.toNat - 1) } })
  ∧ (∀ (s : State) (d : Byte), s.block.mode = .csum → s.block.skip.toNat = 0 →
      exec (.data d) s = .next { s with
        block := { s.block with acc := BitVec.ofNat 8 ((s.block.acc.toNat + d.toNat) % 256) } })
  ∧ (∀ d : Byte, encode (.data d) = 0x3000#16 ||| zext16 d)

/-- R124: DATA in FRAME mode; the byte that fills BUF to exactly MAX_PAYLOAD is kept, the next one faults. -/
def Obligations.FrameDataAppendsOrOverflows : Prop :=
  (∀ (s : State) (d : Byte), s.block.mode = .frame → s.block.buf.length = s.cfg.maxPayload →
    exec (.data d) s = .next (raiseFault .overflow s))
  ∧ (∀ (s : State) (d : Byte), s.block.mode = .frame → s.block.buf.length ≠ s.cfg.maxPayload →
      exec (.data d) s = .next { s with
        block := { s.block with
          buf := s.block.buf ++ [d]
          acc := BitVec.ofNat 8 ((s.block.acc.toNat + d.toNat) % 256) } })
  ∧ (∀ d : Byte, encode (.data d) = 0x3000#16 ||| zext16 d)

/-- R106: END in CSUM mode. -/
def Obligations.CsumEndEmitsTheResult : Prop :=
  (∀ s : State, s.block.mode = .csum → s.block.skip ≠ 0#2 → exec .endOp s = .next (raiseFault .short s))
  ∧ (∀ s : State, s.block.mode = .csum → s.block.skip = 0#2 →
      exec .endOp s = .next { s with
        block := { s.block with mode := .idle, acc := 0x00#8, skip := 0#2 }
        pending := s.pending ++ [0x1100#16 ||| zext16 (BitVec.ofNat 8 (0xFF - s.block.acc.toNat))] })
  ∧ encode .endOp = 0x4000#16

/-- R125: END in FRAME mode: the whole packet, `len(BUF) + 3` words, in one step. -/
def Obligations.FrameEndEmitsTheWholePacket : Prop :=
  (∀ s : State, s.block.mode = .frame →
    exec .endOp s = .next { s with
      block := { s.block with mode := .idle, acc := 0x00#8, buf := [] }
      pending := s.pending
        ++ (([0xFF#8, 0xFF#8] ++ s.block.buf).map (fun b => 0x2000#16 ||| zext16 b)
          ++ [0x2100#16 ||| zext16 (BitVec.ofNat 8 (0xFF - s.block.acc.toNat))]) })
  ∧ (∀ s t : State, s.block.mode = .frame → exec .endOp s = .next t →
      t.pending.length = s.pending.length + (s.block.buf.length + 3))
  ∧ encode .endOp = 0x4000#16

/-- R140: ABORT, in every mode, and what a mis-spelled ABORT does. -/
def Obligations.AbortReturnsToIdle : Prop :=
  (∀ s : State, exec .abort s = .next { s with
    block := { mode := .idle, acc := 0x00#8, skip := 0#2, buf := [], errCode := 0#4 } })
  ∧ encode .abort = 0x5000#16
  ∧ (∀ (s : State) (w : Word), opField w = 5#4 → w ≠ 0x5000#16 →
      acceptWord w s = .next (countWord (if s.block.mode = .err then s else raiseFault .illegal s)))
  ∧ (∀ s t : State, s.block.mode = .err → step s = .next t → t.block.mode ≠ .err →
      (∃ rest, s.input = .word 0x5000#16 :: rest) ∨ (∃ p rest, s.input = .rst p :: rest))

/-- R141: STATUS, in every mode, what a mis-spelled STATUS does, and that nothing else emits in ERR. -/
def Obligations.StatusReportsAndChangesNothing : Prop :=
  (∀ s : State, exec .status s = .next { s with
    pending := s.pending ++
      [0x4100#16 ||| (s.block.errCode.setWidth 16 <<< 4) ||| s.block.mode.bits.setWidth 16] })
  ∧ encode .status = 0x6000#16
  ∧ (∀ (i : Instr) (s t : State), s.block.mode = .err → exec i s = .next t → t.pending ≠ s.pending → i = .status)
  ∧ (∀ (s : State) (w : Word), opField w = 6#4 → w ≠ 0x6000#16 →
      acceptWord w s = .next (countWord (if s.block.mode = .err then s else raiseFault .illegal s)))

/-- R142: DATA by mode, for every value of its byte, and what DATA with reserved bits does outside ERR. -/
def Obligations.DataIsRoutedByMode : Prop :=
  (∀ (s : State) (d : Byte), exec (.data d) s =
    match s.block.mode with
    | .idle => .next (raiseFault .sequence s)
    | .csum =>
      if 0 < s.block.skip.toNat then .next { s with block := { s.block with skip := s.block.skip - 1#2 } }
      else .next { s with block := { s.block with acc := s.block.acc + d } }
    | .frame =>
      if s.block.buf.length = s.cfg.maxPayload then .next (raiseFault .overflow s)
      else .next { s with block := { s.block with buf := s.block.buf ++ [d], acc := s.block.acc + d } }
    | .err => .next s)
  ∧ (∀ d : Byte, legal (0x3000#16 ||| zext16 d) = true ∧ decode (0x3000#16 ||| zext16 d) = .ok (.data d))
  ∧ (∀ (s : State) (w : Word), opField w = 3#4 → rsvField w ≠ 0#4 → s.block.mode ≠ .err →
      acceptWord w s = .next (countWord (raiseFault .illegal s)))

/-- R143: END by mode, and what any other spelling of OP 0x4 does outside ERR. -/
def Obligations.EndIsRoutedByMode : Prop :=
  (∀ s : State, exec .endOp s =
    match s.block.mode with
    | .idle => .next (raiseFault .sequence s)
    | .csum =>
      if 0 < s.block.skip.toNat then .next (raiseFault .short s)
      else .next { s with
        block := { s.block with mode := .idle, acc := 0x00#8, skip := 0#2 }
        pending := s.pending ++ [resultWord (~~~s.block.acc)] }
    | .frame => .next { s with
        block := { s.block with mode := .idle, acc := 0x00#8, buf := [] }
        pending := s.pending ++
          (pktWord 0xFF#8 :: pktWord 0xFF#8 :: s.block.buf.map pktWord ++ [pktLastWord (~~~s.block.acc)]) }
    | .err => .next s)
  ∧ encode .endOp = 0x4000#16
  ∧ (∀ (s : State) (w : Word), opField w = 4#4 → w ≠ 0x4000#16 → s.block.mode ≠ .err →
      acceptWord w s = .next (countWord (raiseFault .illegal s)))

/-- 10_state.md section 4: the STATUS byte's fields, its reset value and its seven values. -/
def Obligations.StatusByteShowsCodeAndMode : Prop :=
  (∀ b : Block, (statusByte b).extractLsb' 4 4 = b.errCode ∧ (statusByte b).extractLsb' 2 2 = 0#2
    ∧ (statusByte b).extractLsb' 0 2 = b.mode.bits)
  ∧ statusByte Block.idle = 0x00#8
  ∧ (∀ (max : Nat) (b : Block), blockWf max b = true →
      statusByte b ∈ [0x00#8, 0x01#8, 0x02#8, 0x13#8, 0x23#8, 0x33#8, 0x43#8])
  ∧ (Mode.idle.bits = 0#2 ∧ Mode.csum.bits = 1#2 ∧ Mode.frame.bits = 2#2 ∧ Mode.err.bits = 3#2)

/-- 20_memory.md sections 3 and 4: what no instruction touches, and that output is only ever added behind what is
there. -/
def Obligations.InstructionsLeaveThePortsAlone : Prop :=
  ∀ (i : Instr) (s t : State), exec i s = .next t →
    t.cfg = s.cfg ∧ t.resetDone = s.resetDone ∧ t.input = s.input ∧ t.consumer = s.consumer
    ∧ t.consumerRest = s.consumerRest ∧ t.taken = s.taken
    ∧ t.accepted = s.accepted ∧ (∃ new, t.pending = s.pending ++ new) ∧ (∃ more, t.history = s.history ++ more)

/-! ### The whole machine -/

/-- 10_state.md section 2 (R26's table, with the ports and the history the model keeps beside it, log 6): every step
from a well-formed state ends in a well-formed state. -/
def Obligations.StepKeepsTheStateWellFormed : Prop :=
  ∀ s t : State, s.wf = true → step s = .next t → t.wf = true

/-- The state after reset is well formed, for every MAX_PAYLOAD of at least 1 (the reference value is log 1). -/
def Obligations.ResetStateIsWellFormed : Prop :=
  (∀ c : Config, c.wf = true → (State.resetWith c).wf = true) ∧ State.reset.wf = true

/-- 10_state.md section 2 and 70_reset_and_hazards.md section 1: the blocks in their mode's row of R26's table are
exactly those that reset and some words can produce; a run starts at a state with such a block and
goes on from it by `runSteps`, and
any other start state is refused. Which start states the model refuses is log 13; that the ports and the fault history
are not asked is the model's choice (log 17). -/
def Obligations.StartableBlocksAreTheReachableOnes : Prop :=
  ∀ (c : Config) (b : Block), c.wf = true →
    (blockWf c.maxPayload b = true ↔
      ∃ (ws : List Word) (t : State),
        steps ws.length (presenting ws (State.resetWith c)) = .next t ∧ t.block = b)
    ∧ ∀ s : State, s.cfg = c → s.resetDone = true → s.block = b →
      ((∃ (ws : List Word) (t : State),
          steps ws.length (presenting ws (State.resetWith c)) = .next t ∧ t.block = b) →
        start s = .next s ∧ ∀ k, runFrom k s = runSteps k s)
      ∧ ((¬ ∃ (ws : List Word) (t : State),
          steps ws.length (presenting ws (State.resetWith c)) = .next t ∧ t.block = b) →
        start s = .refused .unreachableStart ∧ ∀ k, runFrom k s = .refused .unreachableStart)

/-- 20_memory.md sections 3 and 4: a step only adds to the output, at the end; what it adds beyond what was there comes
from one input word, accepted in that step with nothing outstanding. That the consumer's turn comes first (`drain s`)
and that the step's own words are still on the port at its end (`t.pending = new`) is the model's choice (logs 3
and 9). -/
def Obligations.OutputOnlyGrowsByAcceptedWords : Prop :=
  ∀ s t : State, step s = .next t →
    ∃ new, output t = output s ++ new
      ∧ (new ≠ [] → ∃ w rest, s.input = .word w :: rest ∧ t.input = rest ∧ (drain s).pending = [] ∧ t.pending = new
          ∧ t.accepted = s.accepted + 1)

/-- R46: a step adds its output words as one run behind what is there, and packet words come from nothing but END in
FRAME mode, which emits the whole packet in that one step; so ABORT, a fault or reset emits none of it. -/
def Obligations.PacketsAreEmittedWholeOrNotAtAll : Prop :=
  ∀ s t : State, step s = .next t → ∃ new, output t = output s ++ new ∧
    ((∃ w ∈ new, kindField w = 2#4) →
      (∃ rest, s.input = .word 0x4000#16 :: rest) ∧ s.block.mode = .frame
      ∧ new = (([0xFF#8, 0xFF#8] ++ s.block.buf).map (fun b => 0x2000#16 ||| zext16 b)
          ++ [0x2100#16 ||| zext16 (~~~s.block.acc)])
      ∧ new.length = s.block.buf.length + 3 ∧ t.block.mode = .idle)

/-- 20_memory.md section 4: what a run emits from now on, and the block it ends with, depend only on the block, on
MAX_PAYLOAD and on the words presented: not on earlier output, earlier faults or how many words came before. -/
def Obligations.NewOutputDependsOnlyOnBlockAndWords : Prop :=
  ∀ (ws : List Word) (s1 s2 : State),
    s1.resetDone = true → s2.resetDone = true → s1.consumer = [] → s2.consumer = [] →
    s1.consumerRest = .takesAll → s2.consumerRest = .takesAll →
    s1.block = s2.block → s1.cfg = s2.cfg →
    ∃ (t1 t2 : State) (new : List Word) (codes : List FaultCode),
      steps ws.length (presenting ws s1) = .next t1 ∧ steps ws.length (presenting ws s2) = .next t2
      ∧ t1.block = t2.block ∧ output t1 = output s1 ++ new ∧ output t2 = output s2 ++ new
      ∧ t1.history.map FaultRecord.code = s1.history.map FaultRecord.code ++ codes
      ∧ t2.history.map FaultRecord.code = s2.history.map FaultRecord.code ++ codes

/-- 70_reset_and_hazards.md section 4, in the form of the model's choice of log 3: with a consumer that keeps taking,
a finite list of presented words is over, and all its output taken, after one step for each word and one more, and the
run is observed as finished. With rst behind those words, the run goes no further than the rst, where it stands as the
words alone leave it; and while a word is left behind or on the rst, or an output word is outstanding, it is observed
as cut short there, with the output words emitted before it (what else is a run's end at rst is the model's choice, log
18). -/
def Obligations.FiniteInputIsProcessedInFull : Prop :=
  ∀ (ws : List Word) (s : State), s.resetDone = true → s.consumer = [] → s.consumerRest = .takesAll →
    (∃ t new, steps (ws.length + 1) (presenting ws s) = .next t ∧ runEnded t = true ∧ t.input = [] ∧ t.pending = []
      ∧ t.accepted = s.accepted + ws.length ∧ output t = output s ++ new
      ∧ observation s t = some (.finished t.block new)
      ∧ ∀ k, runSteps (ws.length + 1 + k) (presenting ws s) = .next t)
    ∧ ∀ (p : Option Word) (rest : List Event), ∃ u t new,
      steps ws.length (presenting ws s) = .next u ∧ t = setInput (.rst p :: rest) u
      ∧ output u = output s ++ new ∧ t.accepted = s.accepted + ws.length ∧ runEnded t = true
      ∧ (∀ k, runSteps (ws.length + k) (setInput (ws.map Event.word ++ .rst p :: rest) s) = .next t)
      ∧ (p.toList ++ wordsLeft rest ≠ [] ∨ u.pending ≠ [] → observation s t = some (.cutShort new))

/-- 70_reset_and_hazards.md section 3 and the fifth row of its table of host obligations, "CKF holds off the next input
word for ever" (how the consumer is written is the model's choice, log 3): when the consumer stops before it has taken
every outstanding word, the word presented is never accepted, however many steps go by. -/
def Obligations.StoppedConsumerHoldsOffForEver : Prop :=
  ∀ (s : State) (w : Word) (rest : List Event),
    s.resetDone = true → s.input = .word w :: rest → s.consumerRest = .takesNone → s.consumer.sum < s.pending.length →
    ∀ k, ∃ t, steps k s = .next t ∧ t.input = .word w :: rest ∧ t.block = s.block ∧ t.accepted = s.accepted
      ∧ t.history = s.history ∧ output t = output s ∧ t.pending ≠ [] ∧ runEnded t = false

/-- 70_reset_and_hazards.md section 3, "A hold-off changes when a word takes effect, never what it does": whatever the
consumer does at first, once it keeps taking, the words end in the same block, the same output and the same faults as
if it had kept taking all along. -/
def Obligations.HoldOffChangesWhenNotWhat : Prop :=
  ∀ (ws : List Word) (ns : List Nat) (s : State), s.resetDone = true → s.consumer = [] → s.consumerRest = .takesAll →
    ∃ t u : State,
      steps (ws.length + 1) (presenting ws s) = .next t
      ∧ steps (ns.length + ws.length + 1) { presenting ws s with consumer := ns } = .next u
      ∧ u = t

/-! ### What the two operations compute -/

/-- 40_checksum.md section 1, "The 8-bit form" (which the spec marks as its own inference; the reading of the complement
is log 15). -/
def Obligations.ChecksumIsComplementOfTheByteSum : Prop :=
  ∀ b : List Byte, 2 ≤ b.length →
    cks b = some (~~~(BitVec.ofNat 8 (byteSum (b.drop 2) % 256)))
    ∧ (∀ c, cks b = some c → c.toNat = 0xFF - byteSum (b.drop 2) % 256)

/-- 41_framer.md section 1, "The checksum byte of a packet depends only on the payload" (which the spec marks as its own
inference), and every payload has a packet. -/
def Obligations.PacketChecksumIsThePayloads : Prop :=
  ∀ p : List Byte, cks (hdr ++ p) = some (~~~(BitVec.ofNat 8 (byteSum p % 256)))
    ∧ pkt p = [0xFF#8, 0xFF#8] ++ p ++ [~~~(BitVec.ofNat 8 (byteSum p % 256))]

/-- 40_checksum.md section 3, "The bytes that follow the header in any packet p that CKF builds sum to 0xFF modulo
256" (which the spec marks as its own inference): the receiver's check. -/
def Obligations.PacketBytesAfterHeaderSumToFF : Prop :=
  ∀ p : List Byte, byteSum ((pkt p).drop 2) % 256 = 0xFF ∧ cks ((pkt p).dropLast) = (pkt p).getLast?

/-- 41_framer.md section 3, "The source's round-trip properties hold for every packet" (which the spec marks as its own
inference). -/
def Obligations.PacketPreservesThePayload : Prop :=
  ∀ p : List Byte, (pkt p).take 2 = [0xFF#8, 0xFF#8] ∧ (pkt p).getLast? = cks ((pkt p).dropLast)
    ∧ (p ≠ [] → (pkt p)[2]? = p[0]?) ∧ ((pkt p).drop 2).dropLast = p

/-- 40_checksum.md section 3, "Correctness" (which the spec marks as its own inference): a CSUM operation computes the
checksum of its bytes and takes no fault; with fewer than two bytes it gives no result, and its END, the last word,
raises SHORT. -/
def Obligations.CsumOperationComputesTheChecksum : Prop :=
  ∀ (b : List Byte) (s : State), s.block = Block.idle →
    (2 ≤ b.length → ∃ c t, cks b = some c ∧ acceptAll ((csumCall b).map encode) s = .next t
      ∧ t.pending = s.pending ++ [0x1100#16 ||| zext16 c] ∧ t.block = Block.idle ∧ t.history = s.history)
    ∧ (b.length < 2 → ∃ t u,
      acceptAll ((Instr.csumBegin :: b.map Instr.data).map encode) s = .next t
      ∧ t.pending = s.pending ∧ t.history = s.history
      ∧ acceptWord 0x4000#16 t = .next u ∧ u = countWord (raiseFault .short t)
      ∧ acceptAll ((csumCall b).map encode) s = .next u)

/-- 41_framer.md section 3, "Correctness" (which the spec marks as its own inference): a FRAME operation emits the
packet of its payload and takes no fault; beyond MAX_PAYLOAD, the DATA word after the last that fits raises OVERFLOW,
and nothing is emitted but the FAULT word. -/
def Obligations.FrameOperationBuildsThePacket : Prop :=
  ∀ (p : List Byte) (s : State), s.block = Block.idle →
    (p.length ≤ s.cfg.maxPayload → ∃ q c t, pkt p = q ++ [c] ∧ q.length = p.length + 2
      ∧ acceptAll ((frameCall p).map encode) s = .next t
      ∧ t.pending = s.pending ++ (q.map (fun b => 0x2000#16 ||| zext16 b) ++ [0x2100#16 ||| zext16 c])
      ∧ t.block = Block.idle ∧ t.history = s.history)
    ∧ (s.cfg.maxPayload < p.length → ∃ t u v d,
      p[s.cfg.maxPayload]? = some d
      ∧ acceptAll ((Instr.frameBegin :: (p.take s.cfg.maxPayload).map Instr.data).map encode) s = .next t
      ∧ t.history = s.history ∧ t.pending = s.pending
      ∧ acceptWord (encode (.data d)) t = .next u ∧ u = countWord (raiseFault .overflow t)
      ∧ acceptAll ((frameCall p).map encode) s = .next v
      ∧ v.pending = s.pending ++ [0x3104#16] ∧ v.block = u.block ∧ v.history = u.history)

/-- R108: two bytes, whatever they are, give 0xFF. -/
def Obligations.TwoByteBufferGivesFF : Prop :=
  ∀ (x y : Byte) (s : State), s.block = Block.idle →
    ∃ t, acceptAll [0x1000#16, 0x3000#16 ||| zext16 x, 0x3000#16 ||| zext16 y, 0x4000#16] s = .next t
      ∧ t.pending = s.pending ++ [0x11FF#16] ∧ t.block = Block.idle

/-- 20_memory.md section 4 and 70_reset_and_hazards.md section 3 (the consumer that keeps taking and the count of steps
are the model's choices, logs 3 and 9): presenting words to the machine gives what accepting them in order gives. -/
def Obligations.PresentedWordsAreAcceptedInOrder : Prop :=
  ∀ (ws : List Word) (s : State), s.resetDone = true → s.consumer = [] → s.consumerRest = .takesAll →
    ∃ t u, steps ws.length (presenting ws s) = .next t ∧ acceptAll ws s = .next u
      ∧ t.block = u.block ∧ output t = output u ∧ t.history = u.history ∧ t.accepted = u.accepted
      ∧ t.accepted = s.accepted + ws.length ∧ t.input = [] ∧ t.cfg = s.cfg

/-- 10_state.md section 2 and 70_reset_and_hazards.md section 3 (the consumer that keeps taking and the count of steps
are the model's choices, logs 3 and 9): any sequence of the source's calls within range, one after another, gives
exactly the calls' answers in order, takes no fault, and ends in the reset state of the block. -/
def Obligations.CallsInRangeAnswerInOrderWithoutFault : Prop :=
  ∀ (calls : List SourceCall) (s : State), s.resetDone = true → s.consumer = [] → s.consumerRest = .takesAll → s.block = Block.idle →
    calls.all (SourceCall.inRange s.cfg.maxPayload) = true →
    ∃ t, steps (calls.flatMap SourceCall.instrs).length
        (presenting ((calls.flatMap SourceCall.instrs).map encode) s) = .next t
      ∧ t.block = Block.idle ∧ t.history = s.history
      ∧ output t = output s ++ calls.flatMap SourceCall.response

/-- 30_encoding.md section 2 and 93_implementation_defined.md K5: the consumer finds in the answers of any sequence of
calls exactly the packets of the framing calls, in order; a stream is refused exactly when it holds a word that CKF
never emits, and the refusal names such a word. That the refusal takes in every word outside R65's table (K5 names only
reserved KIND and RSV values), and that nothing else is refused (a RESULT, FAULT or STAT word inside an open run of PKT
words is not), is the model's choice (log 14). -/
def Obligations.ConsumerFindsExactlyThePackets : Prop :=
  (∀ calls : List SourceCall,
    packets (calls.flatMap SourceCall.response) =
      .ok (calls.flatMap (fun c => match c with
        | .checksum _ => []
        | .buildPacket p => [pkt p])))
  ∧ (∀ ws : List Word, (∃ ps, packets ws = .ok ps) ↔ ∀ w ∈ ws, (readOutWord w).isSome = true)
  ∧ (∀ (ws : List Word) (w : Word), packets ws = .error (.notFromCkf w) → w ∈ ws ∧ readOutWord w = none)

/-! ### Assembly -/

/-- 30_encoding.md section 5: the words of each line, and that a value out of range is an error, never truncated. -/
def Obligations.AssemblerWordsAndRanges : Prop :=
  assembleLine .csumBegin = some [0x1000#16] ∧ assembleLine .frameBegin = some [0x2000#16]
  ∧ assembleLine .endOp = some [0x4000#16] ∧ assembleLine .abort = some [0x5000#16]
  ∧ assembleLine .status = some [0x6000#16]
  ∧ (∀ n, n ≤ 255 → assembleLine (.data n) = some [0x3000#16 ||| BitVec.ofNat 16 n])
  ∧ (∀ n, 255 < n → assembleLine (.data n) = none)
  ∧ (∀ n, n ≤ 65535 → assembleLine (.word n) = some [BitVec.ofNat 16 n])
  ∧ (∀ n, 65535 < n → assembleLine (.word n) = none)

/-- R75: the two pseudo-instructions assemble to the words of their expansion, and to an error exactly when one of
their bytes is out of range. -/
def Obligations.PseudoInstructionsExpand : Prop :=
  (∀ bs : List Nat, assembleLine (.csum bs) = assemble (.csumBegin :: bs.map AsmLine.data ++ [.endOp]))
  ∧ (∀ ps : List Nat, assembleLine (.frame ps) = assemble (.frameBegin :: ps.map AsmLine.data ++ [.endOp]))

/-- 30_encoding.md section 5 (what the rule leaves open about text is log 11): a number written in decimal, or after
`0x` in hexadecimal, is read back as that number; each name is read in upper and in lower case; and on every
line, what stands after the first `;` is dropped. -/
def Obligations.AssemblyTextIsReadBack : Prop :=
  (∀ n : Nat, parseNumeral (Nat.toDigits 10 n) = some n)
  ∧ (∀ n : Nat, parseNumeral ('0' :: 'x' :: Nat.toDigits 16 n) = some n)
  ∧ (∀ n : Nat, parseLine (['D', 'A', 'T', 'A', ' '] ++ Nat.toDigits 10 n) = some [.data n])
  ∧ parseLine ['C', 'S', 'U', 'M', '.', 'B', 'E', 'G', 'I', 'N'] = some [.csumBegin]
  ∧ parseLine ['c', 's', 'u', 'm', '.', 'b', 'e', 'g', 'i', 'n'] = some [.csumBegin]
  ∧ parseLine ['F', 'R', 'A', 'M', 'E', '.', 'B', 'E', 'G', 'I', 'N'] = some [.frameBegin]
  ∧ parseLine ['f', 'r', 'a', 'm', 'e', '.', 'b', 'e', 'g', 'i', 'n'] = some [.frameBegin]
  ∧ parseLine ['d', 'a', 't', 'a', ' ', '0', 'x', 'f', 'F'] = some [.data 255]
  ∧ parseLine ['E', 'N', 'D', ' ', ';', ' ', 'x'] = some [.endOp] ∧ parseLine ['e', 'n', 'd'] = some [.endOp]
  ∧ parseLine ['A', 'B', 'O', 'R', 'T'] = some [.abort] ∧ parseLine ['a', 'b', 'o', 'r', 't'] = some [.abort]
  ∧ parseLine ['S', 'T', 'A', 'T', 'U', 'S'] = some [.status]
  ∧ parseLine ['s', 't', 'a', 't', 'u', 's'] = some [.status]
  ∧ parseLine ['.', 'w', 'o', 'r', 'd', ' ', '7'] = some [.word 7]
  ∧ parseLine ['C', 'S', 'U', 'M', ' ', '1', ',', ' ', '2'] = some [.csum [1, 2]]
  ∧ parseLine ['c', 's', 'u', 'm', ' ', '1', ',', '2'] = some [.csum [1, 2]]
  ∧ parseLine ['F', 'R', 'A', 'M', 'E', ' ', '3'] = some [.frame [3]]
  ∧ parseLine ['f', 'r', 'a', 'm', 'e'] = some [.frame []]
  ∧ (∀ code text : List Char, ';' ∉ code → parseLine (code ++ ';' :: text) = parseLine code)
end

