-- ==== Sys2Proof/Laws/Decode.lean ====
section
/-! SUPPORT. A word is its three fields, and what a decoded word's fields are. -/

namespace Sys2Proof

/-- A word is its three fields, OP first (R60). -/
theorem word_of_fields (w : Word) : w = opField w ++ rsvField w ++ dField w := by
  apply BitVec.eq_of_getLsbD_eq
  intro i hi
  change _ = BitVec.getLsbD (w := 4 + 4 + 8) _ _
  rw [BitVec.getLsbD_append, BitVec.getLsbD_append]
  simp only [opField, rsvField, dField, BitVec.getLsbD_extractLsb']
  interval_cases i <;> simp

/-- The fields of a word that decodes. -/
theorem decode_ok_fields {w : Word} {i : Instr} (h : decode w = .ok i) :
    opField w = opcode i ∧ rsvField w = 0#4 ∧ dField w = operandByte i := by
  unfold decode withoutOperand at h
  split_ifs at h <;> (cases h; simp_all [opcode, operandByte])

/-- `legal` is R62's three conditions. -/
theorem legal_eq_conditions (w : Word) :
    legal w = true ↔
      (1 ≤ (opField w).toNat ∧ (opField w).toNat ≤ 6) ∧ rsvField w = 0#4
        ∧ ((opField w).toNat = 3 ∨ dField w = 0x00#8) := by
  simp [legal, and_assoc]

end Sys2Proof
end

