-- ==== Sys2Proof/Laws/State.lean ====
section
/-! SUPPORT. One lemma per field per named update of the state, so that no proof unfolds a record update. -/

namespace Sys2Proof.Machine

@[simp] theorem setBlock_cfg (b : Block) (s : State) : (setBlock b s).cfg = s.cfg := rfl
@[simp] theorem setBlock_block (b : Block) (s : State) : (setBlock b s).block = b := rfl
@[simp] theorem setBlock_resetDone (b : Block) (s : State) : (setBlock b s).resetDone = s.resetDone := rfl
@[simp] theorem setBlock_input (b : Block) (s : State) : (setBlock b s).input = s.input := rfl
@[simp] theorem setBlock_consumer (b : Block) (s : State) : (setBlock b s).consumer = s.consumer := rfl
@[simp] theorem setBlock_consumerRest (b : Block) (s : State) : (setBlock b s).consumerRest = s.consumerRest := rfl
@[simp] theorem setBlock_pending (b : Block) (s : State) : (setBlock b s).pending = s.pending := rfl
@[simp] theorem setBlock_taken (b : Block) (s : State) : (setBlock b s).taken = s.taken := rfl
@[simp] theorem setBlock_accepted (b : Block) (s : State) : (setBlock b s).accepted = s.accepted := rfl
@[simp] theorem setBlock_history (b : Block) (s : State) : (setBlock b s).history = s.history := rfl

@[simp] theorem emit_cfg (ws : List Word) (s : State) : (emit ws s).cfg = s.cfg := rfl
@[simp] theorem emit_block (ws : List Word) (s : State) : (emit ws s).block = s.block := rfl
@[simp] theorem emit_resetDone (ws : List Word) (s : State) : (emit ws s).resetDone = s.resetDone := rfl
@[simp] theorem emit_input (ws : List Word) (s : State) : (emit ws s).input = s.input := rfl
@[simp] theorem emit_consumer (ws : List Word) (s : State) : (emit ws s).consumer = s.consumer := rfl
@[simp] theorem emit_consumerRest (ws : List Word) (s : State) : (emit ws s).consumerRest = s.consumerRest := rfl
@[simp] theorem emit_pending (ws : List Word) (s : State) : (emit ws s).pending = s.pending ++ ws := rfl
@[simp] theorem emit_taken (ws : List Word) (s : State) : (emit ws s).taken = s.taken := rfl
@[simp] theorem emit_accepted (ws : List Word) (s : State) : (emit ws s).accepted = s.accepted := rfl
@[simp] theorem emit_history (ws : List Word) (s : State) : (emit ws s).history = s.history := rfl

@[simp] theorem recordFault_cfg (c : FaultCode) (s : State) : (recordFault c s).cfg = s.cfg := rfl
@[simp] theorem recordFault_block (c : FaultCode) (s : State) : (recordFault c s).block = s.block := rfl
@[simp] theorem recordFault_resetDone (c : FaultCode) (s : State) : (recordFault c s).resetDone = s.resetDone := rfl
@[simp] theorem recordFault_input (c : FaultCode) (s : State) : (recordFault c s).input = s.input := rfl
@[simp] theorem recordFault_consumer (c : FaultCode) (s : State) : (recordFault c s).consumer = s.consumer := rfl
@[simp] theorem recordFault_consumerRest (c : FaultCode) (s : State) : (recordFault c s).consumerRest = s.consumerRest := rfl
@[simp] theorem recordFault_pending (c : FaultCode) (s : State) : (recordFault c s).pending = s.pending := rfl
@[simp] theorem recordFault_taken (c : FaultCode) (s : State) : (recordFault c s).taken = s.taken := rfl
@[simp] theorem recordFault_accepted (c : FaultCode) (s : State) : (recordFault c s).accepted = s.accepted := rfl
@[simp] theorem recordFault_history (c : FaultCode) (s : State) : (recordFault c s).history = s.history ++ [{ code := c, index := s.accepted }] := rfl

@[simp] theorem raiseFault_cfg (c : FaultCode) (s : State) : (raiseFault c s).cfg = s.cfg := rfl
@[simp] theorem raiseFault_block (c : FaultCode) (s : State) : (raiseFault c s).block = faultBlock c := rfl
@[simp] theorem raiseFault_resetDone (c : FaultCode) (s : State) : (raiseFault c s).resetDone = s.resetDone := rfl
@[simp] theorem raiseFault_input (c : FaultCode) (s : State) : (raiseFault c s).input = s.input := rfl
@[simp] theorem raiseFault_consumer (c : FaultCode) (s : State) : (raiseFault c s).consumer = s.consumer := rfl
@[simp] theorem raiseFault_consumerRest (c : FaultCode) (s : State) : (raiseFault c s).consumerRest = s.consumerRest := rfl
@[simp] theorem raiseFault_pending (c : FaultCode) (s : State) : (raiseFault c s).pending = s.pending ++ [faultWord c] := rfl
@[simp] theorem raiseFault_taken (c : FaultCode) (s : State) : (raiseFault c s).taken = s.taken := rfl
@[simp] theorem raiseFault_accepted (c : FaultCode) (s : State) : (raiseFault c s).accepted = s.accepted := rfl
@[simp] theorem raiseFault_history (c : FaultCode) (s : State) : (raiseFault c s).history = s.history ++ [{ code := c, index := s.accepted }] := rfl

@[simp] theorem returnToIdle_cfg (s : State) : (returnToIdle s).cfg = s.cfg := rfl
@[simp] theorem returnToIdle_block (s : State) : (returnToIdle s).block = Block.idle := rfl
@[simp] theorem returnToIdle_resetDone (s : State) : (returnToIdle s).resetDone = s.resetDone := rfl
@[simp] theorem returnToIdle_input (s : State) : (returnToIdle s).input = s.input := rfl
@[simp] theorem returnToIdle_consumer (s : State) : (returnToIdle s).consumer = s.consumer := rfl
@[simp] theorem returnToIdle_consumerRest (s : State) : (returnToIdle s).consumerRest = s.consumerRest := rfl
@[simp] theorem returnToIdle_pending (s : State) : (returnToIdle s).pending = s.pending := rfl
@[simp] theorem returnToIdle_taken (s : State) : (returnToIdle s).taken = s.taken := rfl
@[simp] theorem returnToIdle_accepted (s : State) : (returnToIdle s).accepted = s.accepted := rfl
@[simp] theorem returnToIdle_history (s : State) : (returnToIdle s).history = s.history := rfl

@[simp] theorem resetBlock_cfg (s : State) : (resetBlock s).cfg = s.cfg := rfl
@[simp] theorem resetBlock_block (s : State) : (resetBlock s).block = Block.idle := rfl
@[simp] theorem resetBlock_resetDone (s : State) : (resetBlock s).resetDone = true := rfl
@[simp] theorem resetBlock_input (s : State) : (resetBlock s).input = s.input := rfl
@[simp] theorem resetBlock_consumer (s : State) : (resetBlock s).consumer = s.consumer := rfl
@[simp] theorem resetBlock_consumerRest (s : State) : (resetBlock s).consumerRest = s.consumerRest := rfl
@[simp] theorem resetBlock_pending (s : State) : (resetBlock s).pending = s.pending := rfl
@[simp] theorem resetBlock_taken (s : State) : (resetBlock s).taken = s.taken := rfl
@[simp] theorem resetBlock_accepted (s : State) : (resetBlock s).accepted = s.accepted := rfl
@[simp] theorem resetBlock_history (s : State) : (resetBlock s).history = s.history := rfl

@[simp] theorem countWord_cfg (s : State) : (countWord s).cfg = s.cfg := rfl
@[simp] theorem countWord_block (s : State) : (countWord s).block = s.block := rfl
@[simp] theorem countWord_resetDone (s : State) : (countWord s).resetDone = s.resetDone := rfl
@[simp] theorem countWord_input (s : State) : (countWord s).input = s.input := rfl
@[simp] theorem countWord_consumer (s : State) : (countWord s).consumer = s.consumer := rfl
@[simp] theorem countWord_consumerRest (s : State) : (countWord s).consumerRest = s.consumerRest := rfl
@[simp] theorem countWord_pending (s : State) : (countWord s).pending = s.pending := rfl
@[simp] theorem countWord_taken (s : State) : (countWord s).taken = s.taken := rfl
@[simp] theorem countWord_accepted (s : State) : (countWord s).accepted = s.accepted + 1 := rfl
@[simp] theorem countWord_history (s : State) : (countWord s).history = s.history := rfl

@[simp] theorem takeOutput_cfg (n : Nat) (s : State) : (takeOutput n s).cfg = s.cfg := rfl
@[simp] theorem takeOutput_block (n : Nat) (s : State) : (takeOutput n s).block = s.block := rfl
@[simp] theorem takeOutput_resetDone (n : Nat) (s : State) : (takeOutput n s).resetDone = s.resetDone := rfl
@[simp] theorem takeOutput_input (n : Nat) (s : State) : (takeOutput n s).input = s.input := rfl
@[simp] theorem takeOutput_consumer (n : Nat) (s : State) : (takeOutput n s).consumer = s.consumer := rfl
@[simp] theorem takeOutput_consumerRest (n : Nat) (s : State) : (takeOutput n s).consumerRest = s.consumerRest := rfl
@[simp] theorem takeOutput_pending (n : Nat) (s : State) : (takeOutput n s).pending = s.pending.drop n := rfl
@[simp] theorem takeOutput_taken (n : Nat) (s : State) : (takeOutput n s).taken = s.taken ++ s.pending.take n := rfl
@[simp] theorem takeOutput_accepted (n : Nat) (s : State) : (takeOutput n s).accepted = s.accepted := rfl
@[simp] theorem takeOutput_history (n : Nat) (s : State) : (takeOutput n s).history = s.history := rfl

@[simp] theorem setInput_cfg (es : List Event) (s : State) : (setInput es s).cfg = s.cfg := rfl
@[simp] theorem setInput_block (es : List Event) (s : State) : (setInput es s).block = s.block := rfl
@[simp] theorem setInput_resetDone (es : List Event) (s : State) : (setInput es s).resetDone = s.resetDone := rfl
@[simp] theorem setInput_input (es : List Event) (s : State) : (setInput es s).input = es := rfl
@[simp] theorem setInput_consumer (es : List Event) (s : State) : (setInput es s).consumer = s.consumer := rfl
@[simp] theorem setInput_consumerRest (es : List Event) (s : State) : (setInput es s).consumerRest = s.consumerRest := rfl
@[simp] theorem setInput_pending (es : List Event) (s : State) : (setInput es s).pending = s.pending := rfl
@[simp] theorem setInput_taken (es : List Event) (s : State) : (setInput es s).taken = s.taken := rfl
@[simp] theorem setInput_accepted (es : List Event) (s : State) : (setInput es s).accepted = s.accepted := rfl
@[simp] theorem setInput_history (es : List Event) (s : State) : (setInput es s).history = s.history := rfl

@[simp] theorem presentNext_cfg (w : Word) (s : State) : (presentNext w s).cfg = s.cfg := rfl
@[simp] theorem presentNext_block (w : Word) (s : State) : (presentNext w s).block = s.block := rfl
@[simp] theorem presentNext_resetDone (w : Word) (s : State) : (presentNext w s).resetDone = s.resetDone := rfl
@[simp] theorem presentNext_input (w : Word) (s : State) : (presentNext w s).input = Event.word w :: s.input := rfl
@[simp] theorem presentNext_consumer (w : Word) (s : State) : (presentNext w s).consumer = s.consumer := rfl
@[simp] theorem presentNext_consumerRest (w : Word) (s : State) : (presentNext w s).consumerRest = s.consumerRest := rfl
@[simp] theorem presentNext_pending (w : Word) (s : State) : (presentNext w s).pending = s.pending.drop s.pending.length := rfl
@[simp] theorem presentNext_taken (w : Word) (s : State) : (presentNext w s).taken = s.taken ++ s.pending.take s.pending.length := rfl
@[simp] theorem presentNext_accepted (w : Word) (s : State) : (presentNext w s).accepted = s.accepted := rfl
@[simp] theorem presentNext_history (w : Word) (s : State) : (presentNext w s).history = s.history := rfl

@[simp] theorem discard_eq (s : State) : discard s = s := rfl

@[simp] theorem resetWith_block (c : Config) : (State.resetWith c).block = Block.idle := rfl
@[simp] theorem resetWith_cfg (c : Config) : (State.resetWith c).cfg = c := rfl
@[simp] theorem resetWith_resetDone (c : Config) : (State.resetWith c).resetDone = true := rfl
@[simp] theorem resetWith_input (c : Config) : (State.resetWith c).input = [] := rfl
@[simp] theorem resetWith_consumer (c : Config) : (State.resetWith c).consumer = [] := rfl
@[simp] theorem resetWith_consumerRest (c : Config) : (State.resetWith c).consumerRest = .takesAll := rfl
@[simp] theorem resetWith_pending (c : Config) : (State.resetWith c).pending = [] := rfl
@[simp] theorem resetWith_taken (c : Config) : (State.resetWith c).taken = [] := rfl
@[simp] theorem resetWith_accepted (c : Config) : (State.resetWith c).accepted = 0 := rfl
@[simp] theorem resetWith_history (c : Config) : (State.resetWith c).history = [] := rfl

/-- A block is its five fields. -/
theorem block_eq (a b : Block) (hm : a.mode = b.mode) (ha : a.acc = b.acc) (hs : a.skip = b.skip)
    (hb : a.buf = b.buf) (he : a.errCode = b.errCode) : a = b := by
  cases a; cases b; simp_all

end Sys2Proof.Machine
end

