-- ==== Sys2Proof/Laws/Ops.lean ====
section
/-! SUPPORT. For each shared operation, what it can do, said once. -/

namespace Sys2Proof.Machine

/-- The consumer's turn touches nothing but the output side. -/
theorem drain_cases (s : State) :
    ∃ n ns, drain s = takeOutput n { s with consumer := ns } := by
  unfold drain
  split
  · next h => exact ⟨restTake s, [], by rw [← h]⟩
  · next n ns h => exact ⟨n, ns, rfl⟩

@[simp] theorem drain_cfg (s : State) : (drain s).cfg = s.cfg := by unfold drain; split <;> rfl
@[simp] theorem drain_block (s : State) : (drain s).block = s.block := by unfold drain; split <;> rfl
@[simp] theorem drain_resetDone (s : State) : (drain s).resetDone = s.resetDone := by unfold drain; split <;> rfl
@[simp] theorem drain_input (s : State) : (drain s).input = s.input := by unfold drain; split <;> rfl
@[simp] theorem drain_consumerRest (s : State) : (drain s).consumerRest = s.consumerRest := by
  unfold drain; split <;> rfl
@[simp] theorem drain_accepted (s : State) : (drain s).accepted = s.accepted := by unfold drain; split <;> rfl
@[simp] theorem drain_history (s : State) : (drain s).history = s.history := by unfold drain; split <;> rfl

/-- The consumer's turn moves output words and loses none. -/
@[simp] theorem drain_output (s : State) : output (drain s) = output s := by
  obtain ⟨n, ns, h⟩ := drain_cases s
  simp [h, output, takeOutput]

/-- A consumer that keeps taking leaves nothing outstanding. -/
theorem drain_of_keeps_taking {s : State} (h : s.consumer = []) (hr : s.consumerRest = .takesAll) :
    drain s = { s with pending := [], taken := s.taken ++ s.pending } := by
  simp [drain, h, restTake, hr, takeOutput]

/-- A consumer that has stopped takes nothing. -/
theorem drain_of_stopped {s : State} (h : s.consumer = []) (hr : s.consumerRest = .takesNone) : drain s = s := by
  cases s; simp_all [drain, restTake, takeOutput]

/-- A consumer whose list goes on takes as many words as its head says. -/
theorem drain_of_cons {s : State} {n : Nat} {ns : List Nat} (h : s.consumer = n :: ns) :
    drain s = { s with consumer := ns, pending := s.pending.drop n, taken := s.taken ++ s.pending.take n } := by
  simp [drain, h, takeOutput]

/-- An illegal word is the ILLEGAL fault outside ERR and nothing in ERR. -/
theorem takeIllegal_cases (s : State) :
    (s.block.mode = .err ∧ takeIllegal s = s) ∨ (s.block.mode ≠ .err ∧ takeIllegal s = raiseFault .illegal s) := by
  unfold takeIllegal
  cases h : s.block.mode <;> simp

theorem csumData_cases (d : Byte) (s : State) :
    (s.block.skip ≠ 0#2 ∧ csumData d s = setBlock { s.block with skip := s.block.skip - 1#2 } s) ∨
    (s.block.skip = 0#2 ∧ csumData d s = setBlock { s.block with acc := s.block.acc + d } s) := by
  unfold csumData addByte dataOperand
  by_cases h : s.block.skip = 0#2 <;> simp [h]

theorem csumEnd_cases (s : State) :
    (s.block.skip ≠ 0#2 ∧ csumEnd s = raiseFault .short s) ∨
    (s.block.skip = 0#2 ∧ csumEnd s =
      setBlock { s.block with mode := .idle, acc := 0#8, skip := 0#2 } (emit [resultWord (not8 s.block.acc)] s)) := by
  unfold csumEnd
  by_cases h : s.block.skip = 0#2 <;> simp [h]

theorem frameData_cases (d : Byte) (s : State) :
    (s.block.buf.length = s.cfg.maxPayload ∧ frameData d s = raiseFault .overflow s) ∨
    (s.block.buf.length ≠ s.cfg.maxPayload ∧ frameData d s =
      setBlock { s.block with buf := s.block.buf ++ [d], acc := s.block.acc + d } s) := by
  unfold frameData addByte dataOperand
  by_cases h : s.block.buf.length = s.cfg.maxPayload <;> simp [h]

/-- Accepting a word executes the instruction it decodes to, or takes it as illegal. -/
theorem acceptWord_cases (w : Word) (s : State) :
    (∃ i, decode w = .ok i ∧ acceptWord w s = counted (exec i s)) ∨
    (∃ e, decode w = .error e ∧ acceptWord w s = .next (countWord (takeIllegal s))) := by
  unfold acceptWord
  cases h : decode w with
  | ok i => exact .inl ⟨i, rfl, rfl⟩
  | error e => exact .inr ⟨e, rfl, rfl⟩

/-- Everything one step can do. -/
theorem cycle_cases (s : State) :
    (s.input = [] ∧ cycle s = .next (drain s)) ∨
    (∃ p rest, s.input = .rst p :: rest ∧ cycle s = .next (resetBlock (setInput rest (drain s)))) ∨
    (∃ w rest, s.input = .word w :: rest ∧ s.resetDone = false ∧ cycle s = .refused .beforeFirstReset) ∨
    (∃ w rest, s.input = .word w :: rest ∧ s.resetDone = true ∧ (drain s).pending ≠ [] ∧
      cycle s = .next (drain s)) ∨
    (∃ w rest, s.input = .word w :: rest ∧ s.resetDone = true ∧ (drain s).pending = [] ∧
      cycle s = acceptWord w (setInput rest (drain s))) := by
  unfold cycle inputSide
  rw [drain_input, drain_resetDone]
  cases hi : s.input with
  | nil => exact .inl ⟨rfl, rfl⟩
  | cons e rest =>
    cases e with
    | rst p => exact .inr (.inl ⟨p, rest, rfl, rfl⟩)
    | word w =>
      cases hr : s.resetDone with
      | false => exact .inr (.inr (.inl ⟨w, rest, rfl, rfl, by simp⟩))
      | true =>
        by_cases hp : (drain s).pending = []
        · exact .inr (.inr (.inr (.inr ⟨w, rest, rfl, rfl, hp, by simp [hp]⟩)))
        · exact .inr (.inr (.inr (.inl ⟨w, rest, rfl, rfl, hp, by simp [hp]⟩)))

end Sys2Proof.Machine
end

