-- ==== Sys2Proof/Laws/Exec.lean ====
section
/-! SUPPORT. Everything an instruction can do, and everything a step can do, each said once. -/

namespace Sys2Proof.Machine

/-- Everything an instruction can do, said once. -/
theorem exec_cases {i : Instr} {s t : State} (h : exec i s = .next t) :
    t = s ∨
    (s.block.mode ≠ .err ∧ ∃ c, t = raiseFault c s) ∨
    (i = .csumBegin ∧ s.block.mode = .idle ∧ t = openCsum s) ∨
    (i = .frameBegin ∧ s.block.mode = .idle ∧ t = openFrame s) ∨
    (∃ d, i = .data d ∧ s.block.mode = .csum ∧ s.block.skip ≠ 0#2 ∧
      t = setBlock { s.block with skip := s.block.skip - 1#2 } s) ∨
    (∃ d, i = .data d ∧ s.block.mode = .csum ∧ s.block.skip = 0#2 ∧
      t = setBlock { s.block with acc := s.block.acc + d } s) ∨
    (∃ d, i = .data d ∧ s.block.mode = .frame ∧ s.block.buf.length ≠ s.cfg.maxPayload ∧
      t = setBlock { s.block with buf := s.block.buf ++ [d], acc := s.block.acc + d } s) ∨
    (i = .endOp ∧ s.block.mode = .csum ∧ s.block.skip = 0#2 ∧
      t = setBlock { s.block with mode := .idle, acc := 0#8, skip := 0#2 }
        (emit [resultWord (not8 s.block.acc)] s)) ∨
    (i = .endOp ∧ s.block.mode = .frame ∧ t = frameEnd s) ∨
    (i = .abort ∧ t = returnToIdle s) ∨
    (i = .status ∧ t = emit [statWord s.block] s) := by
  cases i with
  | csumBegin =>
    simp only [exec, execCsumBegin] at h
    cases hm : s.block.mode <;> rw [hm] at h <;> cases h
    · exact .inr (.inr (.inl ⟨rfl, rfl, rfl⟩))
    · exact .inr (.inl ⟨by simp, _, rfl⟩)
    · exact .inr (.inl ⟨by simp, _, rfl⟩)
    · exact .inl rfl
  | frameBegin =>
    simp only [exec, execFrameBegin] at h
    cases hm : s.block.mode <;> rw [hm] at h <;> cases h
    · exact .inr (.inr (.inr (.inl ⟨rfl, rfl, rfl⟩)))
    · exact .inr (.inl ⟨by simp, _, rfl⟩)
    · exact .inr (.inl ⟨by simp, _, rfl⟩)
    · exact .inl rfl
  | data d =>
    simp only [exec, execData] at h
    cases hm : s.block.mode <;> rw [hm] at h <;> cases h
    · exact .inr (.inl ⟨by simp, _, rfl⟩)
    · rcases csumData_cases d s with ⟨a, b⟩ | ⟨a, b⟩
      · exact .inr (.inr (.inr (.inr (.inl ⟨d, rfl, rfl, a, b⟩))))
      · exact .inr (.inr (.inr (.inr (.inr (.inl ⟨d, rfl, rfl, a, b⟩)))))
    · rcases frameData_cases d s with ⟨a, b⟩ | ⟨a, b⟩
      · exact .inr (.inl ⟨by simp, _, b⟩)
      · exact .inr (.inr (.inr (.inr (.inr (.inr (.inl ⟨d, rfl, rfl, a, b⟩))))))
    · exact .inl rfl
  | endOp =>
    simp only [exec, execEnd] at h
    cases hm : s.block.mode <;> rw [hm] at h <;> cases h
    · exact .inr (.inl ⟨by simp, _, rfl⟩)
    · rcases csumEnd_cases s with ⟨a, b⟩ | ⟨a, b⟩
      · exact .inr (.inl ⟨by simp, _, b⟩)
      · exact .inr (.inr (.inr (.inr (.inr (.inr (.inr (.inl ⟨rfl, rfl, a, b⟩)))))))
    · simp
    · exact .inl rfl
  | abort => cases h; simp
  | status => cases h; simp

/-- Accepting a word ends in a next state only as one of `exec_cases` or of `takeIllegal_cases`. -/
theorem acceptWord_next {w : Word} {s t : State} (h : acceptWord w s = .next t) :
    (∃ i u, decode w = .ok i ∧ exec i s = .next u ∧ t = countWord u) ∨
    (∃ e, decode w = .error e ∧ t = countWord (takeIllegal s)) := by
  rcases acceptWord_cases w s with ⟨i, hd, hw⟩ | ⟨e, hd, hw⟩
  · rw [hw] at h
    cases hx : exec i s with
    | next u => rw [hx] at h; cases h; exact .inl ⟨i, u, hd, hx, rfl⟩
    | fault r => rw [hx] at h; cases h
    | refused r => rw [hx] at h; cases h
  · rw [hw] at h; cases h; exact .inr ⟨e, hd, rfl⟩

/-- Every step that ends in a next state: waiting, reset, hold-off, or an accepted word. -/
theorem step_next {s t : State} (h : step s = .next t) :
    (s.input = [] ∧ t = drain s) ∨
    (∃ p rest, s.input = .rst p :: rest ∧ t = resetBlock (setInput rest (drain s))) ∨
    (∃ w rest, s.input = .word w :: rest ∧ (drain s).pending ≠ [] ∧ t = drain s) ∨
    (∃ w rest, s.input = .word w :: rest ∧ s.resetDone = true ∧ (drain s).pending = [] ∧
      acceptWord w (setInput rest (drain s)) = .next t) := by
  unfold step at h
  rcases cycle_cases s with ⟨h1, h2⟩ | ⟨p, r, h1, h2⟩ | ⟨w, r, h1, h2, h3⟩ | ⟨w, r, h1, h2, h3, h4⟩ |
    ⟨w, r, h1, h2, h3, h4⟩
  · rw [h2] at h; cases h; exact .inl ⟨h1, rfl⟩
  · rw [h2] at h; cases h; exact .inr (.inl ⟨p, r, h1, rfl⟩)
  · rw [h3] at h; cases h
  · rw [h4] at h; cases h; exact .inr (.inr (.inl ⟨w, r, h1, h3, rfl⟩))
  · rw [h4] at h; exact .inr (.inr (.inr ⟨w, r, h1, h2, h3, h⟩))

end Sys2Proof.Machine
end

