-- ==== Sys2Proof/Laws/PerInstr.lean ====
section
/-! SUPPORT. A fact about every instruction as syntax: the three fields of its word (R60). -/

namespace Sys2Proof.Laws.EncodedFields

/-- The word of an instruction carries its opcode, zero reserved bits and its operand byte. -/
def Statement (i : Instr) : Prop :=
  opField (encode i) = opcode i ∧ rsvField (encode i) = 0 ∧ dField (encode i) = operandByte i

theorem csumBegin : Statement .csumBegin := by unfold Statement; decide
theorem frameBegin : Statement .frameBegin := by unfold Statement; decide
theorem data (d : Byte) : Statement (.data d) := by
  unfold Statement; revert d; decide
theorem endOp : Statement .endOp := by unfold Statement; decide
theorem abort : Statement .abort := by unfold Statement; decide
theorem status : Statement .status := by unfold Statement; decide

end Sys2Proof.Laws.EncodedFields
end

