-- ==== Sys2Proof/Laws/Run.lean ====
section
/-! SUPPORT. When a run goes on and where it ends. -/

namespace Sys2Proof.Machine

@[simp] theorem wordsLeft_words (ws : List Word) : wordsLeft (ws.map Event.word) = ws := by
  induction ws with
  | nil => rfl
  | cons w ws ih => simp [wordsLeft, ih]

/-- A run never ends while a word is presented. -/
theorem runEnded_of_word {s : State} {w : Word} {rest : List Event} (h : s.input = .word w :: rest) :
    runEnded s = false := by
  simp [runEnded, runFinished, resetNext, h, wordsLeft]

/-- A run ends where rst comes. -/
theorem runEnded_of_rst {s : State} {p : Option Word} {rest : List Event} (h : s.input = .rst p :: rest) :
    runEnded s = true := by
  simp [runEnded, resetNext, h]

/-- A run that has ended stays where it is. -/
theorem runSteps_of_ended {s : State} (h : runEnded s = true) (k : Nat) : runSteps k s = .next s := by
  cases k <;> simp [runSteps, h]

/-- A run that has not ended takes a step of the machine. -/
theorem runSteps_of_step {s t : State} (h : runEnded s = false) (hs : step s = .next t) (k : Nat) :
    runSteps (k + 1) s = runSteps k t := by
  simp [runSteps, h, hs]

/-- A run has an observation exactly when it has ended. -/
theorem observation_isSome (s₀ s : State) : (observation s₀ s).isSome = runEnded s := by
  unfold observation runEnded
  cases runFinished s <;> cases resetNext s <;> simp

end Sys2Proof.Machine
end

