-- ==== Sys2Proof/Tests/Slice0.lean ====
section
/-! SUPPORT. Small tests, one step each, with expected results from 95_test_vectors.md and the rules' own examples;
and, for every statement with hypotheses, a concrete state and operands that meet them, at the edges of each clause. -/

namespace Sys2Proof.Tests

open Sys2Proof.Machine

/-! ### Helpers -/

/-- The reset state with another block. -/
def withBlock (b : Block) : State := { State.reset with block := b }

/-- The reset state with a word presented. -/
def offered (w : Word) : State := setInput [.word w] State.reset

/-- A CSUM block with the given SKIP and ACC. -/
def csumAt (skip : BitVec 2) (acc : Byte) : Block := { mode := .csum, acc := acc, skip := skip, buf := [], errCode := 0 }

/-- A FRAME block with the given payload so far. -/
def frameAt (p : List Byte) : Block := { mode := .frame, acc := accSum p, skip := 0, buf := p, errCode := 0 }

/-- A block in ERR after the given fault. -/
def errAt (c : FaultCode) : State := withBlock (faultBlock c)

/-- The reset state of a block built with MAX_PAYLOAD 2, with another block. -/
def smallAt (b : Block) : State := { State.resetWith { maxPayload := 2 } with block := b }

/-- What a step shows: the block, the words on the port, the history. -/
def seen : Host.Outcome State Fault Refusal → Option (Block × List Word × List FaultRecord)
  | .next s => some (s.block, s.pending, s.history)
  | .fault _ => none
  | .refused _ => none

/-! ### Well-formedness: an ill-formed term for each check -/

theorem test_wf_refuses_imm8 : AsmLine.wf (.data 256) = false ∧ AsmLine.wf (.data 255) = true := by decide
theorem test_wf_refuses_imm16 : AsmLine.wf (.word 65536) = false ∧ AsmLine.wf (.word 65535) = true := by decide
theorem test_wf_refuses_csum_byte : AsmLine.wf (.csum [0, 256]) = false ∧ AsmLine.wf (.csum []) = true := by decide
theorem test_wf_refuses_frame_byte : AsmLine.wf (.frame [256]) = false ∧ AsmLine.wf (.frame [255]) = true := by decide
theorem test_wf_refuses_config : Config.wf { maxPayload := 0 } = false ∧ Config.wf { maxPayload := 1 } = true := by decide
theorem test_block_wf_refuses :
    blockWf 256 { Block.idle with acc := 1 } = false ∧ blockWf 256 (csumAt 3 0) = false
    ∧ blockWf 256 (csumAt 1 7) = false ∧ blockWf 2 (frameAt [1, 2, 3]) = false
    ∧ blockWf 256 { frameAt [1] with acc := 2 } = false ∧ blockWf 256 { faultBlock .short with errCode := 5 } = false := by
  decide

/-! ### Decoding: words written out from the bit patterns of R60 and R63 -/

theorem test_decode_csum_begin : decode 0b0001000000000000#16 = .ok .csumBegin := by decide
theorem test_decode_frame_begin : decode 0b0010000000000000#16 = .ok .frameBegin := by decide
theorem test_decode_data : decode 0b0011000010100101#16 = .ok (.data 0xA5#8) := by decide
theorem test_decode_end : decode 0b0100000000000000#16 = .ok .endOp := by decide
theorem test_decode_abort : decode 0b0101000000000000#16 = .ok .abort := by decide
theorem test_decode_status : decode 0b0110000000000000#16 = .ok .status := by decide
theorem test_decode_rejects_by_name :
    decode 0x0000#16 = .error .reservedOp ∧ decode 0x7000#16 = .error .reservedOp
    ∧ decode 0x3100#16 = .error .reservedBits ∧ decode 0x1001#16 = .error .operandNotZero := by decide
theorem test_encode_data : encode (.data 0x18#8) = 0x3018#16 := by decide
theorem test_decode_table_word :
    decodeTableWord 16 0x30FF = some (.data 0xFF#8) ∧ decodeTableWord 16 0x0000 = none
    ∧ decodeTableWord 8 0xFF = none ∧ decodeTableWord 24 0x1000 = none := by decide

/-! ### One step from reset through the ports (V-CT and V-FA rows of 95_test_vectors.md) -/

theorem test_step_status_from_reset : seen (step (offered 0x6000#16)) = some (Block.idle, [0x4100#16], []) := by decide
theorem test_step_data_from_reset :
    seen (step (offered 0x3012#16)) = some (faultBlock .sequence, [0x3102#16], [{ code := .sequence, index := 0 }]) := by
  decide
theorem test_step_zero_word :
    seen (step (offered 0x0000#16)) = some (faultBlock .illegal, [0x3101#16], [{ code := .illegal, index := 0 }]) := by
  decide
theorem test_placed_word_runs :
    seen (step (State.reset.withFetchWord 16 0x1000)) = some (csumAt 2 0, [], []) := by decide

/-! ### The instructions, one step each -/

theorem test_frame_begin : seen (exec .frameBegin State.reset) = some (frameAt [], [], []) := by decide
/-- R105's example: SKIP 0, ACC 0xF0, DATA 0x20 gives ACC 0x10. -/
theorem test_csum_data_wraps : seen (exec (.data 0x20) (withBlock (csumAt 0 0xF0))) = some (csumAt 0 0x10, [], []) := by
  decide
/-- R124's example: BUF [03], DATA 0x04 gives BUF [03, 04] and ACC 0x07. -/
theorem test_frame_data_appends :
    seen (exec (.data 4) (withBlock (frameAt [3]))) = some (frameAt [3, 4], [], []) := by decide
/-- R106's example: ACC 0x01 gives the result word 0x11FE. -/
theorem test_csum_end : seen (exec .endOp (withBlock (csumAt 0 1))) = some (Block.idle, [0x11FE#16], []) := by decide
/-- The packet of 95_test_vectors.md V-EX-01. -/
theorem test_frame_end :
    seen (exec .endOp (withBlock (frameAt [3, 4, 3, 0x18, 0]))) =
      some (Block.idle,
        [0x20FF#16, 0x20FF#16, 0x2003#16, 0x2004#16, 0x2003#16, 0x2018#16, 0x2000#16, 0x21DD#16], []) := by decide
theorem test_abort_drops_payload : seen (exec .abort (withBlock (frameAt [1, 2]))) = some (Block.idle, [], []) := by decide
/-- R141's example: after SHORT, STATUS emits 0x4133. -/
theorem test_status_after_short : seen (exec .status (errAt .short)) = some (faultBlock .short, [0x4133#16], []) := by
  decide
theorem test_reset_drops_payload :
    seen (step (setInput [.rst none] (withBlock (frameAt [1])))) = some (Block.idle, [], []) := by decide

/-! ### The functions and the assembler -/

/-- V-CS-08: the carry is dropped, not added back in (conflict C1). -/
theorem test_cks_no_end_around_carry : cks [0xFF, 0xFF, 0xFF, 0x01] = some 0xFF#8 := by decide
/-- V-CS-10: the first two bytes are skipped whatever they are; one byte alone has no checksum. -/
theorem test_cks_skips_two : cks [0x12, 0x34, 0xAA, 0x55] = some 0x00#8 ∧ cks [0xFF] = none := by decide
theorem test_pkt_empty : pkt [] = [0xFF#8, 0xFF#8, 0xFF#8] := by decide
theorem test_packets_found :
    packets [0x4100#16, 0x20FF#16, 0x20FF#16, 0x2003#16, 0x21FC#16, 0x11ED#16] =
      .ok [[0xFF#8, 0xFF#8, 0x03#8, 0xFC#8]] := by
  decide
/-- K5: a stream with a word that CKF never emits is refused, even inside a packet. -/
theorem test_foreign_word_refused : packets [0x20FF#16, 0x0000#16, 0x21FF#16] = .error (.notFromCkf 0x0000#16) := by decide
theorem test_assemble_text :
    assembleText [['c', 's', 'u', 'm', ' ', '0', 'x', 'F', 'f', ',', '7', ' ', ';', 'x'], [], ['A', 'B', 'O', 'R', 'T']]
      = some [0x1000#16, 0x30FF#16, 0x3007#16, 0x4000#16, 0x5000#16] := by decide

/-! ### Witnesses: the hypotheses of each statement, met -/

theorem witness_DecodeOfEncode : Instr.wf (.data 0xFF#8) = true ∧ Instr.wf .csumBegin = true := by decide
theorem witness_EncodeOfDecode : decode 0x30FF#16 = .ok (.data 0xFF#8) ∧ decode 0x6000#16 = .ok .status := by decide
theorem witness_OutputWordsReadBack :
    blockWf 256 Block.idle = true ∧ blockWf 256 (faultBlock .overflow) = true
    ∧ readOutWord 0x11FF#16 = some (.result 0xFF#8) ∧ readOutWord 0x2000#16 = some (.pkt false 0#8)
    ∧ readOutWord 0x21FF#16 = some (.pkt true 0xFF#8) ∧ readOutWord 0x3104#16 = some (.fault .overflow)
    ∧ readOutWord 0x4143#16 = some (.stat 0x43#8) ∧ readOutWord 0x3105#16 = none ∧ readOutWord 0x4104#16 = none := by
  decide
theorem witness_StepRuns :
    (offered 0x30FF#16).resetDone = true ∧ (offered 0x30FF#16).input = .word 0x30FF#16 :: []
    ∧ (drain (offered 0x30FF#16)).pending = [] ∧ decode 0x30FF#16 = .ok (.data 0xFF#8)
    ∧ ∃ t, exec (.data 0xFF#8) (setInput [] (drain (offered 0x30FF#16))) = .next t :=
  ⟨by decide, by decide, by decide, by decide, _, rfl⟩
theorem witness_ConsumerTurn :
    State.reset.consumer = [] ∧ State.reset.consumerRest = .takesAll
    ∧ ({ State.reset with consumerRest := .takesNone } : State).consumerRest = .takesNone
    ∧ ({ State.reset with consumer := [0, 1] } : State).consumer = 0 :: [1] := by decide
theorem witness_StepFunction :
    (errAt .illegal).block.mode = .err ∧ State.reset.block.mode ≠ .err ∧ legal 0x3100#16 = false
    ∧ legal 0x3000#16 = true ∧ legal 0x30FF#16 = true := by decide
/-- A state whose consumer takes nothing while a word is outstanding. -/
def stalled : State := { offered 0x1000#16 with consumer := [0], pending := [0x4100#16] }
theorem witness_HoldOff :
    stalled.resetDone = true ∧ stalled.input = .word 0x1000#16 :: [] ∧ (drain stalled).pending ≠ [] := by decide
/-- A consumer that takes one of two outstanding words and then stops. -/
def stopped : State := { stalled with consumer := [1], consumerRest := .takesNone, pending := [0x4100#16, 0x4100#16] }
theorem witness_StoppedConsumer :
    stopped.resetDone = true ∧ stopped.input = .word 0x1000#16 :: [] ∧ stopped.consumerRest = .takesNone
    ∧ stopped.consumer.sum < stopped.pending.length := by decide
theorem test_stopped_consumer_holds_off :
    ∃ t, steps 5 stopped = .next t ∧ t.input = [.word 0x1000#16] ∧ t.pending = [0x4100#16] := ⟨_, rfl, by decide, by decide⟩
theorem witness_RunCut :
    (some 0x6000#16).toList ++ wordsLeft [] ≠ [] ∧ (none : Option Word).toList ++ wordsLeft [.word 0x6000#16] ≠ []
    ∧ (none : Option Word).toList ++ wordsLeft [.rst none] = [] := by decide
/-- R199: a run cut short by reset ends there, with the word emitted before it; the STATUS behind the rst is not run. -/
theorem test_run_ends_at_reset :
    (match runFrom 9 (setInput [.word 0x6000#16, .rst none, .word 0x6000#16] State.reset) with
      | .next t => observation State.reset t
      | .fault _ => none
      | .refused _ => none) = some (.cutShort [0x4100#16]) := by decide
theorem test_run_finished :
    (match runFrom 9 (presenting [0x1000#16, 0x4000#16] State.reset) with
      | .next t => observation State.reset t
      | .fault _ => none
      | .refused _ => none) = some (.finished (faultBlock .short) [0x3103#16]) := by decide
theorem witness_NothingPresented :
    State.reset.input = [] ∧ State.reset.pending = [] ∧ State.reset.consumer = [] := by decide
theorem witness_Reset_rst : (setInput [.rst (some 0x6000#16)] (errAt .short)).input = .rst (some 0x6000#16) :: [] := by
  decide
theorem witness_Reset_only_ways :
    (∃ t, (setInput [.word 0x4000#16] (withBlock (csumAt 0 5))).block ≠ Block.idle
      ∧ step (setInput [.word 0x4000#16] (withBlock (csumAt 0 5))) = .next t ∧ t.block = Block.idle)
    ∧ (∃ t, (setInput [.word 0x5000#16] (errAt .short)).block ≠ Block.idle
      ∧ step (setInput [.word 0x5000#16] (errAt .short)) = .next t ∧ t.block = Block.idle) :=
  ⟨⟨_, by decide, rfl, by decide⟩, ⟨_, by decide, rfl, by decide⟩⟩
theorem witness_NeverReset :
    (setInput [.word 0x6000#16] (powerUp Config.reference (csumAt 3 9))).resetDone = false
    ∧ (setInput [.word 0x6000#16] (powerUp Config.reference (csumAt 3 9))).input = .word 0x6000#16 :: [] := by decide
theorem witness_PlacedWord : State.reset.resetDone = true ∧ stalled.resetDone = true := by decide
theorem witness_IllegalWord :
    legal 0x7000#16 = false ∧ State.reset.block.mode ≠ .err ∧ (errAt .illegal).block.mode = .err := by decide
theorem witness_Sequence :
    (withBlock (csumAt 2 0)).block.mode = .csum ∧ (withBlock (frameAt [])).block.mode = .frame
    ∧ State.reset.block.mode = .idle := by decide
/-- A block in ERR with a word presented. -/
def errOffered (w : Word) : State := setInput [.word w] (errAt .short)
theorem witness_ErrMode :
    (errOffered 0x3012#16).resetDone = true ∧ (errOffered 0x3012#16).block.mode = .err
    ∧ (errOffered 0x3012#16).input = .word 0x3012#16 :: [] ∧ (drain (errOffered 0x3012#16)).pending = []
    ∧ (0x3012#16 : Word) ≠ 0x5000#16 ∧ (0x3012#16 : Word) ≠ 0x6000#16
    ∧ (errOffered 0x5000#16).input = .word 0x5000#16 :: [] ∧ (errOffered 0x6000#16).input = .word 0x6000#16 :: [] := by
  decide
theorem witness_LeavesErr :
    ∃ t, (errOffered 0x5000#16).block.mode = .err ∧ step (errOffered 0x5000#16) = .next t ∧ t.block.mode ≠ .err
      ∧ t.block.errCode ≠ (errOffered 0x5000#16).block.errCode := ⟨_, by decide, rfl, by decide, by decide⟩
theorem witness_FaultPriority : State.reset.block.mode = .idle ∧ legal 0x3100#16 = false := by decide
theorem witness_FaultingWord :
    ∃ t, acceptWord 0x4000#16 (withBlock (csumAt 1 0)) = .next t ∧ t.history ≠ (withBlock (csumAt 1 0)).history :=
  ⟨_, rfl, by decide⟩
theorem witness_NeverNest :
    ∃ t, (errOffered 0x4000#16).block.mode = .err ∧ step (errOffered 0x4000#16) = .next t ∧ t.block.mode = .err :=
  ⟨_, by decide, rfl, by decide⟩
theorem witness_History : ∃ t, step (offered 0x4000#16) = .next t ∧ t.history ≠ State.reset.history := ⟨_, rfl, by decide⟩
theorem witness_ErrOutput :
    (∃ t, step (offered 0x4000#16) = .next t ∧ errO (offered 0x4000#16).block = false ∧ errO t.block = true)
    ∧ (∃ t, step (errOffered 0x5000#16) = .next t ∧ errO (errOffered 0x5000#16).block = true ∧ errO t.block = false) :=
  ⟨⟨_, rfl, by decide, by decide⟩, ⟨_, rfl, by decide, by decide⟩⟩
theorem witness_Begins :
    State.reset.block.mode = .idle ∧ (withBlock (csumAt 0 1)).block.mode = .csum
    ∧ (withBlock (frameAt [1])).block.mode = .frame ∧ (errAt .overflow).block.mode = .err
    ∧ opField 0x1001#16 = 1#4 ∧ (0x1001#16 : Word) ≠ 0x1000#16 ∧ opField 0x2100#16 = 2#4
    ∧ (0x2100#16 : Word) ≠ 0x2000#16 := by decide
theorem witness_CsumData :
    (withBlock (csumAt 2 0)).block.mode = .csum ∧ 0 < (withBlock (csumAt 2 0)).block.skip.toNat
    ∧ 0 < (withBlock (csumAt 1 0)).block.skip.toNat ∧ (withBlock (csumAt 0 0xFF)).block.skip.toNat = 0 := by decide
theorem witness_FrameData :
    (smallAt (frameAt [1, 2])).block.mode = .frame
    ∧ (smallAt (frameAt [1, 2])).block.buf.length = (smallAt (frameAt [1, 2])).cfg.maxPayload
    ∧ (smallAt (frameAt [1])).block.mode = .frame
    ∧ (smallAt (frameAt [1])).block.buf.length ≠ (smallAt (frameAt [1])).cfg.maxPayload := by decide
theorem witness_CsumEnd :
    (withBlock (csumAt 1 0)).block.mode = .csum ∧ (withBlock (csumAt 1 0)).block.skip ≠ 0#2
    ∧ (withBlock (csumAt 0 0)).block.mode = .csum ∧ (withBlock (csumAt 0 0)).block.skip = 0#2 := by decide
theorem witness_FrameEnd :
    (withBlock (frameAt [])).block.mode = .frame ∧ ∃ t, exec .endOp (withBlock (frameAt [])) = .next t :=
  ⟨by decide, _, rfl⟩
theorem witness_OtherSpellings :
    opField 0x5001#16 = 5#4 ∧ (0x5001#16 : Word) ≠ 0x5000#16 ∧ opField 0x6100#16 = 6#4
    ∧ (0x6100#16 : Word) ≠ 0x6000#16 ∧ opField 0x3100#16 = 3#4 ∧ rsvField 0x3100#16 ≠ 0#4
    ∧ opField 0x4080#16 = 4#4 ∧ (0x4080#16 : Word) ≠ 0x4000#16 := by decide
theorem witness_StatusOnlyEmitter :
    ∃ t, (errAt .short).block.mode = .err ∧ exec .status (errAt .short) = .next t ∧ t.pending ≠ (errAt .short).pending :=
  ⟨_, by decide, rfl, by decide⟩
theorem witness_StatusByte : blockWf 256 (faultBlock .sequence) = true ∧ blockWf 256 (frameAt [9]) = true := by decide
theorem witness_PortsAlone : ∃ t, exec .endOp (withBlock (frameAt [7])) = .next t := ⟨_, rfl⟩
theorem witness_StepKeepsWf :
    ∃ t, State.wf (setInput [.word 0x3005#16] (smallAt (frameAt [1]))) = true
      ∧ step (setInput [.word 0x3005#16] (smallAt (frameAt [1]))) = .next t ∧ t.block = frameAt [1, 5] :=
  ⟨_, by decide, rfl, by decide⟩
theorem witness_ResetWf : Config.wf { maxPayload := 1 } = true := by decide
theorem witness_Startable :
    Config.wf { maxPayload := 2 } = true ∧ blockWf 2 (frameAt [1, 2]) = true
    ∧ (smallAt (frameAt [1, 2])).cfg = { maxPayload := 2 } ∧ (smallAt (frameAt [1, 2])).resetDone = true
    ∧ blockWf 2 (csumAt 3 0) = false ∧ startable (smallAt (csumAt 3 0)) = false := by decide
theorem test_start_answers : start (smallAt (frameAt [1, 2])) = .next (smallAt (frameAt [1, 2])) := rfl
theorem witness_OutputGrows :
    ∃ t, step (offered 0x6000#16) = .next t ∧ output t = output (offered 0x6000#16) ++ [0x4100#16] :=
  ⟨_, rfl, by decide⟩
theorem witness_PacketWhole :
    ∃ t, step (setInput [.word 0x4000#16] (withBlock (frameAt []))) = .next t
      ∧ t.pending = [0x20FF#16, 0x20FF#16, 0x21FF#16] ∧ kindField 0x20FF#16 = 2#4 := ⟨_, rfl, by decide, by decide⟩
theorem witness_TwoStates :
    State.reset.resetDone = true ∧ State.reset.consumer = [] ∧ State.reset.consumerRest = .takesAll
    ∧ State.reset.block = Block.idle
    ∧ ({ State.reset with taken := [0x4100#16], accepted := 1 } : State).consumerRest = .takesAll
    ∧ ({ State.reset with taken := [0x4100#16], accepted := 1 } : State).block = State.reset.block
    ∧ ({ State.reset with taken := [0x4100#16], accepted := 1 } : State).cfg = State.reset.cfg := by decide
theorem witness_Checksum : 2 ≤ ([0xFF#8, 0xFF#8] : List Byte).length ∧ cks [0xFF, 0xFF] = some 0xFF#8 := by decide
theorem witness_Preserves : ([0xFE#8] : List Byte) ≠ [] := by decide
theorem witness_FrameOperation :
    (smallAt Block.idle).resetDone = true ∧ (smallAt Block.idle).consumer = []
    ∧ (smallAt Block.idle).consumerRest = .takesAll ∧ (smallAt Block.idle).block = Block.idle
    ∧ ([0xAA#8, 0xBB#8] : List Byte).length ≤ (smallAt Block.idle).cfg.maxPayload
    ∧ (smallAt Block.idle).cfg.maxPayload < ([0xAA#8, 0xBB#8, 0xCC#8] : List Byte).length := by decide
theorem witness_Calls :
    [SourceCall.checksum [0, 0], .buildPacket [], .buildPacket [1, 2]].all (SourceCall.inRange 2) = true
    ∧ SourceCall.inRange 2 (.checksum [0]) = false ∧ SourceCall.inRange 2 (.buildPacket [1, 2, 3]) = false := by decide
theorem witness_Assembler : (255 : Nat) ≤ 255 ∧ (255 : Nat) < 256 ∧ (65535 : Nat) ≤ 65535 ∧ (65535 : Nat) < 65536 := by
  decide

end Sys2Proof.Tests
end

section
/-! SUPPORT. The output of each named operation, which steps can emit a PKT word (20_memory.md section 3, R46), and the
statement of that family settled from it. -/

namespace Sys2Proof.Machine

/-! ### What each operation does to the output -/

@[simp] theorem output_setBlock (b : Block) (s : State) : output (setBlock b s) = output s := rfl
@[simp] theorem output_returnToIdle (s : State) : output (returnToIdle s) = output s := rfl
@[simp] theorem output_resetBlock (s : State) : output (resetBlock s) = output s := rfl
@[simp] theorem output_countWord (s : State) : output (countWord s) = output s := rfl
@[simp] theorem output_setInput (es : List Event) (s : State) : output (setInput es s) = output s := rfl

/-- Emitted words stand behind everything emitted before them (R46). -/
@[simp] theorem output_emit (ws : List Word) (s : State) : output (emit ws s) = output s ++ ws := by
  simp [output]

@[simp] theorem output_raiseFault (c : FaultCode) (s : State) :
    output (raiseFault c s) = output s ++ [faultWord c] := by
  simp [output]

@[simp] theorem output_frameEnd (s : State) :
    output (frameEnd s) = output s ++ packetWords s.block.buf s.block.acc := by
  simp [frameEnd]

@[simp] theorem frameEnd_mode (s : State) : (frameEnd s).block.mode = .idle := rfl

/-- Two header words, one word for each payload byte, and the checksum word (R125). -/
theorem packetWords_length (buf : List Byte) (acc : Byte) : (packetWords buf acc).length = buf.length + 3 := by
  simp [packetWords]

/-! ### The kinds of the output words (R65) -/

/-- A byte carried in a word's low half does not reach its KIND field. -/
theorem kindField_or_zext16 (k : Word) (b : Byte) : kindField (k ||| zext16 b) = kindField k := by
  have hb : (zext16 b).extractLsb' 12 4 = 0#4 := by
    ext i hi
    simp only [zext16, BitVec.getElem_extractLsb', BitVec.getLsbD_setWidth, BitVec.getElem_zero]
    rw [BitVec.getLsbD_of_ge b (12 + i) (by omega), Bool.and_false]
  simp [kindField, BitVec.extractLsb'_or, hb]

@[simp] theorem kindField_resultWord (c : Byte) : kindField (resultWord c) = 1#4 := kindField_or_zext16 _ c
@[simp] theorem kindField_statWord (b : Block) : kindField (statWord b) = 4#4 := kindField_or_zext16 _ _
@[simp] theorem kindField_faultWord (c : FaultCode) : kindField (faultWord c) = 3#4 := by cases c <;> rfl

/-! ### Where packet words come from -/

/-- The output at `t` is the output at `s` and a run of words behind it, none of them a PKT word. -/
def AddsNoPacketWord (s t : State) : Prop :=
  ∃ new, output t = output s ++ new ∧ ∀ w ∈ new, kindField w ≠ 2#4

theorem AddsNoPacketWord.of_output_eq {s t : State} (h : output t = output s) : AddsNoPacketWord s t :=
  ⟨[], by simp [h]⟩

theorem AddsNoPacketWord.of_one_word {s t : State} {w : Word} (h : output t = output s ++ [w])
    (hw : kindField w ≠ 2#4) : AddsNoPacketWord s t :=
  ⟨[w], h, by simpa using hw⟩

/-- Only the two outputs count. -/
theorem AddsNoPacketWord.congr {s s' t t' : State} (h : AddsNoPacketWord s t) (hs : output s' = output s)
    (ht : output t' = output t) : AddsNoPacketWord s' t' := by
  simpa [AddsNoPacketWord, hs, ht] using h

/-- A fault entry emits one FAULT word and drops the payload without a trace (R165). -/
theorem raiseFault_addsNoPacketWord (c : FaultCode) (s : State) : AddsNoPacketWord s (raiseFault c s) :=
  .of_one_word (output_raiseFault c s) (by simp)

theorem takeIllegal_addsNoPacketWord (s : State) : AddsNoPacketWord s (takeIllegal s) := by
  rcases takeIllegal_cases s with ⟨-, h⟩ | ⟨-, h⟩ <;> rw [h]
  · exact .of_output_eq rfl
  · exact raiseFault_addsNoPacketWord .illegal s

/-- The one instruction that emits a PKT word is END in FRAME (R125). -/
theorem exec_addsNoPacketWord_or_frameEnd {i : Instr} {s t : State} (h : exec i s = .next t) :
    AddsNoPacketWord s t ∨ (i = .endOp ∧ s.block.mode = .frame ∧ t = frameEnd s) := by
  rcases exec_cases h with rfl | ⟨-, c, rfl⟩ | ⟨-, -, rfl⟩ | ⟨-, -, rfl⟩ | ⟨d, -, -, -, rfl⟩ | ⟨d, -, -, -, rfl⟩ |
    ⟨d, -, -, -, rfl⟩ | ⟨-, -, -, rfl⟩ | ⟨hi, hm, ht⟩ | ⟨-, rfl⟩ | ⟨-, rfl⟩
  · exact .inl (.of_output_eq rfl)
  · exact .inl (raiseFault_addsNoPacketWord c s)
  · exact .inl (.of_output_eq rfl)
  · exact .inl (.of_output_eq rfl)
  · exact .inl (.of_output_eq rfl)
  · exact .inl (.of_output_eq rfl)
  · exact .inl (.of_output_eq rfl)
  · exact .inl (.of_one_word (output_emit _ s) (by simp))
  · exact .inr ⟨hi, hm, ht⟩
  · exact .inl (.of_output_eq rfl)
  · exact .inl (.of_one_word (output_emit _ s) (by simp))

/-- END has one spelling (R62, R63). -/
theorem eq_of_decode_endOp {w : Word} (h : decode w = .ok .endOp) : w = 0x4000#16 := by
  obtain ⟨hop, hrsv, hd⟩ := decode_ok_fields h
  rw [word_of_fields w, hop, hrsv, hd]
  rfl

theorem acceptWord_addsNoPacketWord_or_frameEnd {w : Word} {s t : State} (h : acceptWord w s = .next t) :
    AddsNoPacketWord s t ∨ (w = 0x4000#16 ∧ s.block.mode = .frame ∧ t = countWord (frameEnd s)) := by
  rcases acceptWord_next h with ⟨i, u, hd, hx, rfl⟩ | ⟨e, -, rfl⟩
  · rcases exec_addsNoPacketWord_or_frameEnd hx with hno | ⟨rfl, hm, rfl⟩
    · exact .inl (hno.congr rfl rfl)
    · exact .inr ⟨eq_of_decode_endOp hd, hm, rfl⟩
  · exact .inl ((takeIllegal_addsNoPacketWord s).congr rfl rfl)

/-- R46: a step emits no PKT word, or it is END in FRAME. -/
theorem step_addsNoPacketWord_or_frameEnd {s t : State} (h : step s = .next t) :
    AddsNoPacketWord s t ∨
    (∃ rest, s.input = .word 0x4000#16 :: rest ∧ s.block.mode = .frame ∧
      t = countWord (frameEnd (setInput rest (drain s)))) := by
  rcases step_next h with ⟨-, rfl⟩ | ⟨p, rest, -, rfl⟩ | ⟨w, rest, -, -, rfl⟩ | ⟨w, rest, hin, -, -, hacc⟩
  · exact .inl (.of_output_eq (by simp))
  · exact .inl (.of_output_eq (by simp))
  · exact .inl (.of_output_eq (by simp))
  · rcases acceptWord_addsNoPacketWord_or_frameEnd hacc with hno | ⟨rfl, hm, rfl⟩
    · exact .inl (hno.congr (by simp) rfl)
    · exact .inr ⟨rest, hin, by simpa using hm, rfl⟩

/-- Settles O43: of the two kinds of step, one adds no PKT word and the other adds `packetWords`. -/
theorem packetsAreEmittedWholeOrNotAtAll : Obligations.PacketsAreEmittedWholeOrNotAtAll := by
  intro s t h
  rcases step_addsNoPacketWord_or_frameEnd h with ⟨new, hout, hno⟩ | ⟨rest, hin, hm, rfl⟩
  · exact ⟨new, hout, fun ⟨w, hw, hk⟩ => absurd hk (hno w hw)⟩
  · exact ⟨packetWords s.block.buf s.block.acc, by simp,
      fun _ => ⟨⟨rest, hin⟩, hm, rfl, packetWords_length _ _, rfl⟩⟩

end Sys2Proof.Machine
end

section
/-! SUPPORT. A legal word is the spelling of one instruction (R62, R63, R72), what accepting a word does in and outside
ERR (R70), and the statement about the step function settled from these. -/

namespace Sys2Proof

/-! ### Legal words, their fields and the decoder -/

/-- The fields of an instruction, reserved bits zero, decode to it (R60, R63). -/
theorem decode_of_fields {w : Word} {i : Instr} (hop : opField w = opcode i) (hrsv : rsvField w = 0#4)
    (hd : dField w = operandByte i) : decode w = .ok i := by
  cases i <;> simp [decode, withoutOperand, hop, hrsv, hd, opcode, operandByte]

/-- An instruction has one spelling (R72). -/
theorem encode_of_decode {w : Word} {i : Instr} (h : decode w = .ok i) : encode i = w := by
  obtain ⟨hop, hrsv, hd⟩ := decode_ok_fields h
  rw [encode, ← hop, ← hrsv, ← hd, ← word_of_fields]

/-- The six legal values of OP (R62). -/
theorem opcode_range : ∀ op : BitVec 4, 1 ≤ op.toNat → op.toNat ≤ 6 →
    op = 1#4 ∨ op = 2#4 ∨ op = 3#4 ∨ op = 4#4 ∨ op = 5#4 ∨ op = 6#4 := by
  decide

/-- Every OP in the legal range is the opcode of an instruction, whose operand is `d` wherever R62 lets `d` stand. -/
theorem exists_instr_of_fields (op : BitVec 4) (d : Byte) (hlo : 1 ≤ op.toNat) (hhi : op.toNat ≤ 6)
    (hd : op.toNat = 3 ∨ d = 0x00#8) : ∃ i, opcode i = op ∧ operandByte i = d := by
  rcases opcode_range op hlo hhi with rfl | rfl | rfl | rfl | rfl | rfl
  case inr.inr.inl => exact ⟨.data d, rfl, rfl⟩
  all_goals obtain rfl : d = 0x00#8 := hd.resolve_left (by decide)
  · exact ⟨.csumBegin, rfl, rfl⟩
  · exact ⟨.frameBegin, rfl, rfl⟩
  · exact ⟨.endOp, rfl, rfl⟩
  · exact ⟨.abort, rfl, rfl⟩
  · exact ⟨.status, rfl, rfl⟩

theorem exists_decode_of_legal {w : Word} (h : legal w = true) : ∃ i, decode w = .ok i := by
  obtain ⟨⟨hlo, hhi⟩, hrsv, hd⟩ := (legal_eq_conditions w).mp h
  obtain ⟨i, hop, hi⟩ := exists_instr_of_fields (opField w) (dField w) hlo hhi hd
  exact ⟨i, decode_of_fields hop.symm hrsv hi.symm⟩

theorem legal_of_decode {w : Word} {i : Instr} (h : decode w = .ok i) : legal w = true := by
  obtain ⟨hop, hrsv, hd⟩ := decode_ok_fields h
  rw [legal_eq_conditions, hop, hd]
  cases i <;> simp [hrsv, opcode, operandByte]

namespace Machine

/-! ### Accepting a word -/

theorem acceptWord_of_decode {w : Word} {i : Instr} (h : decode w = .ok i) (s : State) :
    acceptWord w s = counted (exec i s) := by
  simp [acceptWord, h]

theorem acceptWord_of_illegal {w : Word} (h : legal w = false) (s : State) :
    acceptWord w s = counted (.next (takeIllegal s)) := by
  rcases acceptWord_cases w s with ⟨i, hdec, -⟩ | ⟨e, -, hacc⟩
  · simp [legal_of_decode hdec] at h
  · exact hacc

/-! ### In ERR (R167) -/

theorem exec_of_err {i : Instr} {s : State} (hm : s.block.mode = .err) (ha : i ≠ .abort) (hs : i ≠ .status) :
    exec i s = .next s := by
  cases i with
  | csumBegin => simp [exec, execCsumBegin, hm]
  | frameBegin => simp [exec, execFrameBegin, hm]
  | data d => simp [exec, execData, hm]
  | endOp => simp [exec, execEnd, hm]
  | abort => exact absurd rfl ha
  | status => exact absurd rfl hs

theorem takeIllegal_of_err {s : State} (hm : s.block.mode = .err) : takeIllegal s = s := by
  simp [takeIllegal, hm]

theorem takeIllegal_of_ne_err {s : State} (hm : s.block.mode ≠ .err) : takeIllegal s = raiseFault .illegal s := by
  rcases takeIllegal_cases s with ⟨herr, -⟩ | ⟨-, h⟩
  · exact absurd herr hm
  · exact h

/-- In ERR every word but the spellings of ABORT and STATUS is discarded, legal or not. -/
theorem acceptWord_of_err {w : Word} {s : State} (hm : s.block.mode = .err) (ha : w ≠ 0x5000#16)
    (hs : w ≠ 0x6000#16) : acceptWord w s = counted (.next s) := by
  rcases acceptWord_cases w s with ⟨i, hdec, hacc⟩ | ⟨e, -, hacc⟩
  · have hw := encode_of_decode hdec
    have hia : i ≠ .abort := by rintro rfl; exact ha hw.symm
    have his : i ≠ .status := by rintro rfl; exact hs hw.symm
    rw [hacc, exec_of_err hm hia his]
  · rw [hacc, takeIllegal_of_err hm]
    rfl

/-! ### Totality -/

theorem exec_total (i : Instr) (s : State) : ∃ t, exec i s = .next t := by
  cases i with
  | csumBegin => unfold exec execCsumBegin; cases s.block.mode <;> exact ⟨_, rfl⟩
  | frameBegin => unfold exec execFrameBegin; cases s.block.mode <;> exact ⟨_, rfl⟩
  | data d => unfold exec execData; cases s.block.mode <;> exact ⟨_, rfl⟩
  | endOp => unfold exec execEnd; cases s.block.mode <;> exact ⟨_, rfl⟩
  | abort => exact ⟨_, rfl⟩
  | status => exact ⟨_, rfl⟩

theorem acceptWord_total (w : Word) (s : State) : ∃ t, acceptWord w s = .next t := by
  rcases acceptWord_cases w s with ⟨i, -, hacc⟩ | ⟨e, -, hacc⟩
  · obtain ⟨t, ht⟩ := exec_total i s
    exact ⟨countWord t, by rw [hacc, ht]; rfl⟩
  · exact ⟨_, hacc⟩

/-! ### New output words stand behind the outstanding ones -/

theorem exec_pending {i : Instr} {s t : State} (h : exec i s = .next t) : s.pending <+: t.pending := by
  rcases exec_cases h with rfl | ⟨-, c, rfl⟩ | ⟨-, -, rfl⟩ | ⟨-, -, rfl⟩ | ⟨d, -, -, -, rfl⟩ | ⟨d, -, -, -, rfl⟩ |
    ⟨d, -, -, -, rfl⟩ | ⟨-, -, -, rfl⟩ | ⟨-, -, rfl⟩ | ⟨-, rfl⟩ | ⟨-, rfl⟩
  · exact List.prefix_rfl
  · exact List.prefix_append _ [faultWord c]
  · exact List.prefix_rfl
  · exact List.prefix_rfl
  · exact List.prefix_rfl
  · exact List.prefix_rfl
  · exact List.prefix_rfl
  · exact List.prefix_append _ [resultWord (not8 s.block.acc)]
  · exact List.prefix_append _ (packetWords s.block.buf s.block.acc)
  · exact List.prefix_rfl
  · exact List.prefix_append _ [statWord s.block]

theorem takeIllegal_pending (s : State) : s.pending <+: (takeIllegal s).pending := by
  rcases takeIllegal_cases s with ⟨-, h⟩ | ⟨-, h⟩
  · simp [h]
  · simp [h]

theorem acceptWord_pending {w : Word} {s t : State} (h : acceptWord w s = .next t) : s.pending <+: t.pending := by
  rcases acceptWord_next h with ⟨i, u, -, hx, rfl⟩ | ⟨e, -, rfl⟩
  · rw [countWord_pending]
    exact exec_pending hx
  · rw [countWord_pending]
    exact takeIllegal_pending s

/-- Settles O8: R70's order of questions is ERR, legality, dispatch; each clause is the lemma about that question. -/
theorem stepFunctionChecksErrThenLegality : Obligations.StepFunctionChecksErrThenLegality := by
  refine ⟨fun s w hm => ?_, fun s w hm hl => ?_, fun s w _ hl => ?_, fun s w => ?_⟩
  · split_ifs with ha hs
    · subst ha
      exact acceptWord_of_decode (by decide) s
    · subst hs
      exact acceptWord_of_decode (by decide) s
    · exact acceptWord_of_err hm ha hs
  · rw [acceptWord_of_illegal hl, takeIllegal_of_ne_err hm]
  · obtain ⟨i, hdec⟩ := exists_decode_of_legal hl
    obtain ⟨hop, -, hd⟩ := decode_ok_fields hdec
    exact ⟨i, hop.symm, hd.symm, acceptWord_of_decode hdec s⟩
  · obtain ⟨t, ht⟩ := acceptWord_total w s
    obtain ⟨new, hnew⟩ := acceptWord_pending ht
    exact ⟨t, new, ht, hnew.symm⟩

end Machine
end Sys2Proof
end

section
/-! SUPPORT. The checksum operation (40_checksum.md section 2, R104 to R108): spellings of an instruction, the arithmetic
of its fields, what each word of the operation does in CSUM mode, and the statements of that family settled from these. -/

namespace Sys2Proof

open Machine

/-! ### The spellings of an instruction -/

theorem decode_encode (i : Instr) : decode (encode i) = .ok i := by
  have hfields : Laws.EncodedFields.Statement i := by
    cases i with
    | csumBegin => exact Laws.EncodedFields.csumBegin
    | frameBegin => exact Laws.EncodedFields.frameBegin
    | data d => exact Laws.EncodedFields.data d
    | endOp => exact Laws.EncodedFields.endOp
    | abort => exact Laws.EncodedFields.abort
    | status => exact Laws.EncodedFields.status
  obtain ⟨hop, hrsv, hd⟩ := hfields
  exact decode_of_fields hop hrsv hd

theorem encode_data (d : Byte) : encode (.data d) = 0x3000#16 ||| zext16 d := by
  have hopcode : (0x3#4 ++ 0#4 : Byte) = 0x30#8 := by decide
  have hhigh : (0x3000#16 : Word) = 0x30#8 ++ 0#8 := by decide
  have hlow : zext16 d = 0#8 ++ d := BitVec.setWidth_eq_append (by decide)
  calc encode (.data d) = (0x3#4 ++ 0#4 : Byte) ++ d := rfl
    _ = 0x30#8 ++ d := by rw [hopcode]
    _ = (0x30#8 ||| 0#8) ++ (0#8 ||| d) := by rw [BitVec.or_zero, BitVec.zero_or]
    _ = 0x3000#16 ||| zext16 d := by rw [hhigh, hlow, BitVec.or_append]

/-- An instruction without operand is the only legal word with its OP (R62). -/
theorem eq_encode_of_legal {w : Word} {i : Instr} (hl : legal w = true) (hop : opField w = opcode i)
    (hi : opcode i ≠ 3#4) : w = encode i := by
  obtain ⟨-, hrsv, hd⟩ := (legal_eq_conditions w).mp hl
  have hne : (opField w).toNat ≠ 3 := fun h => hi (hop ▸ BitVec.eq_of_toNat_eq h)
  have hoperand : operandByte i = 0x00#8 := by
    cases i with
    | data d => exact absurd rfl hi
    | csumBegin | frameBegin | endOp | abort | status => rfl
  rw [word_of_fields w, hop, hrsv, hd.resolve_left hne, encode, hoperand]

namespace Machine

theorem acceptWord_encode (i : Instr) (s : State) : acceptWord (encode i) s = counted (exec i s) :=
  acceptWord_of_decode (decode_encode i) s

/-- Outside ERR, a word with an operandless instruction's OP but another spelling is the ILLEGAL fault (R161). -/
theorem acceptWord_of_misspelled {w : Word} {i : Instr} {s : State} (hop : opField w = opcode i)
    (hi : opcode i ≠ 3#4) (hw : w ≠ encode i) (hm : s.block.mode ≠ .err) :
    acceptWord w s = .next (countWord (raiseFault .illegal s)) := by
  have hl : legal w = false := Bool.eq_false_iff.mpr fun hl => hw (eq_encode_of_legal hl hop hi)
  rw [acceptWord_of_illegal hl, takeIllegal_of_ne_err hm]
  rfl

theorem acceptAll_cons {w : Word} {s t : State} (h : acceptWord w s = .next t) (ws : List Word) :
    acceptAll (w :: ws) s = acceptAll ws t := by
  rw [acceptAll, h]

/-! ### The arithmetic of ACC and SKIP, on numbers -/

theorem addByte_eq_ofNat (a d : Byte) : addByte a d = BitVec.ofNat 8 ((a.toNat + d.toNat) % 256) := by
  unfold addByte
  bv_omega

theorem not8_eq_ofNat (a : Byte) : not8 a = BitVec.ofNat 8 (0xFF - a.toNat) := by
  unfold not8
  bv_omega

/-- SKIP above 0 counts down without wrapping (R105). -/
theorem skip_sub_one_eq_ofNat {k : BitVec 2} (hk : k ≠ 0#2) : k - 1#2 = BitVec.ofNat 2 (k.toNat - 1) := by
  bv_omega

/-! ### CSUM.BEGIN, and DATA and END in CSUM mode -/

theorem exec_csumBegin_of_idle {s : State} (hm : s.block.mode = .idle) : exec .csumBegin s = .next (openCsum s) := by
  simp [exec, execCsumBegin, hm]

theorem exec_csumBegin_of_open {s : State} (hm : s.block.mode = .csum ∨ s.block.mode = .frame) :
    exec .csumBegin s = .next (raiseFault .sequence s) := by
  rcases hm with hm | hm
  · simp [exec, execCsumBegin, hm]
  · simp [exec, execCsumBegin, hm]

theorem exec_data_of_csum {s : State} (hm : s.block.mode = .csum) (d : Byte) :
    exec (.data d) s = .next (csumData d s) := by
  simp [exec, execData, hm]

theorem exec_endOp_of_csum {s : State} (hm : s.block.mode = .csum) : exec .endOp s = .next (csumEnd s) := by
  simp [exec, execEnd, hm]

theorem csumData_of_skip_ne_zero {s : State} (hk : s.block.skip ≠ 0#2) (d : Byte) :
    csumData d s = setBlock { s.block with skip := s.block.skip - 1#2 } s :=
  if_pos hk

theorem csumData_of_skip_eq_zero {s : State} (hk : s.block.skip = 0#2) (d : Byte) :
    csumData d s = setBlock { s.block with acc := addByte s.block.acc d } s :=
  if_neg (not_not.mpr hk)

theorem csumEnd_of_skip_ne_zero {s : State} (hk : s.block.skip ≠ 0#2) : csumEnd s = raiseFault .short s :=
  if_pos hk

theorem csumEnd_of_skip_eq_zero {s : State} (hk : s.block.skip = 0#2) :
    csumEnd s =
      setBlock { s.block with mode := .idle, acc := 0#8, skip := 0#2 } (emit [resultWord (not8 s.block.acc)] s) :=
  if_neg (not_not.mpr hk)

/-- Settles O27: the mode decides what CSUM.BEGIN does, and no other word with OP 1 is legal. -/
theorem csumBeginOpensTheOperation : Obligations.CsumBeginOpensTheOperation := by
  refine ⟨fun s hm => ?_, fun s hm => ?_, fun s hm => ?_, ?_, fun s w hop hw hm => ?_⟩
  · rw [exec_csumBegin_of_idle hm]
    rfl
  · exact exec_csumBegin_of_open hm
  · exact exec_of_err hm (by simp) (by simp)
  · decide
  · exact acceptWord_of_misspelled (i := .csumBegin) hop (by decide) hw hm

/-- Settles O29: the two branches of `csumData`, their arithmetic read on numbers. -/
theorem csumDataSkipsTwoThenCounts : Obligations.CsumDataSkipsTwoThenCounts := by
  refine ⟨fun s d hm hk => ?_, fun s d hm hk => ?_, encode_data⟩
  · have hne : s.block.skip ≠ 0#2 := by bv_omega
    rw [exec_data_of_csum hm, csumData_of_skip_ne_zero hne, skip_sub_one_eq_ofNat hne]
    rfl
  · have hzero : s.block.skip = 0#2 := BitVec.eq_of_toNat_eq hk
    rw [exec_data_of_csum hm, csumData_of_skip_eq_zero hzero, addByte_eq_ofNat]
    rfl

/-- Settles O31: the two branches of `csumEnd`, the complement read as a subtraction from 0xFF. -/
theorem csumEndEmitsTheResult : Obligations.CsumEndEmitsTheResult := by
  refine ⟨fun s hm hk => ?_, fun s hm hk => ?_, by decide⟩
  · rw [exec_endOp_of_csum hm, csumEnd_of_skip_ne_zero hk]
  · rw [exec_endOp_of_csum hm, csumEnd_of_skip_eq_zero hk, not8_eq_ofNat]
    rfl

/-! ### The words of a checksum operation, from IDLE to IDLE -/

/-- The block of an open checksum operation (the CSUM row of R26). -/
def csumBlock (skip : BitVec 2) (acc : Byte) : Block :=
  { mode := .csum, acc := acc, skip := skip, buf := [], errCode := 0#4 }

theorem acceptWord_csumBegin_of_idle {s : State} (hb : s.block = Block.idle) :
    acceptWord 0x1000#16 s = .next (countWord (setBlock (csumBlock 2#2 0#8) s)) := by
  have hx : exec .csumBegin s = .next (setBlock (csumBlock 2#2 0#8) s) := by
    rw [exec_csumBegin_of_idle (by rw [hb]; rfl), openCsum, hb]
    rfl
  rw [acceptWord_of_decode (i := .csumBegin) (by decide), hx]
  rfl

/-- While SKIP is above 0 a byte lowers it, whatever the byte (R105). -/
theorem acceptWord_data_of_skipping {s : State} {k : BitVec 2} {a : Byte} (hb : s.block = csumBlock k a)
    (hk : k ≠ 0#2) (d : Byte) :
    acceptWord (0x3000#16 ||| zext16 d) s = .next (countWord (setBlock (csumBlock (k - 1#2) a) s)) := by
  have hx : exec (.data d) s = .next (setBlock (csumBlock (k - 1#2) a) s) := by
    rw [exec_data_of_csum (by rw [hb]; rfl), csumData_of_skip_ne_zero (by rw [hb]; exact hk), hb]
    rfl
  rw [← encode_data, acceptWord_encode, hx]
  rfl

theorem acceptWord_endOp_of_counting {s : State} {a : Byte} (hb : s.block = csumBlock 0#2 a) :
    acceptWord 0x4000#16 s = .next (countWord (setBlock Block.idle (emit [resultWord (not8 a)] s))) := by
  have hx : exec .endOp s = .next (setBlock Block.idle (emit [resultWord (not8 a)] s)) := by
    rw [exec_endOp_of_csum (by rw [hb]; rfl), csumEnd_of_skip_eq_zero (by rw [hb]; rfl), hb]
    rfl
  rw [acceptWord_of_decode (i := .endOp) (by decide), hx]
  rfl

/-- The first two bytes leave an open operation with nothing summed, whatever they are (R105, R108). -/
theorem acceptAll_csumBegin_two_data {s : State} (hb : s.block = Block.idle) (x y : Byte) (ws : List Word) :
    acceptAll (0x1000#16 :: (0x3000#16 ||| zext16 x) :: (0x3000#16 ||| zext16 y) :: ws) s =
      acceptAll ws { s with block := csumBlock 0#2 0#8, accepted := s.accepted + 3 } := by
  rw [acceptAll_cons (acceptWord_csumBegin_of_idle hb),
    acceptAll_cons (acceptWord_data_of_skipping rfl (by decide) x),
    acceptAll_cons (acceptWord_data_of_skipping rfl (by decide) y)]
  rfl

/-- Settles O53: both bytes are skipped, so END complements an ACC of 0. -/
theorem twoByteBufferGivesFF : Obligations.TwoByteBufferGivesFF := by
  intro x y s hb
  rw [acceptAll_csumBegin_two_data hb, acceptAll_cons (acceptWord_endOp_of_counting rfl)]
  exact ⟨_, rfl, rfl, rfl⟩

end Machine
end Sys2Proof
end

section
/-! SUPPORT. The framing operation (41_framer.md section 2, R123 to R125): what FRAME.BEGIN does in each mode, what DATA
and END do in FRAME mode, and the statements of that family settled from these. -/

namespace Sys2Proof.Machine

/-! ### FRAME.BEGIN, and DATA and END in FRAME mode -/

theorem exec_frameBegin_of_idle {s : State} (hm : s.block.mode = .idle) :
    exec .frameBegin s = .next (openFrame s) := by
  simp [exec, execFrameBegin, hm]

theorem exec_frameBegin_of_open {s : State} (hm : s.block.mode = .csum ∨ s.block.mode = .frame) :
    exec .frameBegin s = .next (raiseFault .sequence s) := by
  rcases hm with hm | hm
  · simp [exec, execFrameBegin, hm]
  · simp [exec, execFrameBegin, hm]

theorem exec_data_of_frame {s : State} (hm : s.block.mode = .frame) (d : Byte) :
    exec (.data d) s = .next (frameData d s) := by
  simp [exec, execData, hm]

theorem exec_endOp_of_frame {s : State} (hm : s.block.mode = .frame) : exec .endOp s = .next (frameEnd s) := by
  simp [exec, execEnd, hm]

theorem frameData_of_full {s : State} (hfull : s.block.buf.length = s.cfg.maxPayload) (d : Byte) :
    frameData d s = raiseFault .overflow s :=
  if_pos hfull

theorem frameData_of_room {s : State} (hroom : s.block.buf.length ≠ s.cfg.maxPayload) (d : Byte) :
    frameData d s = setBlock { s.block with buf := s.block.buf ++ [d], acc := addByte s.block.acc d } s :=
  if_neg hroom

theorem frameEnd_pending_length (s : State) :
    (frameEnd s).pending.length = s.pending.length + (s.block.buf.length + 3) := by
  have hpending : (frameEnd s).pending = s.pending ++ packetWords s.block.buf s.block.acc := rfl
  rw [hpending, List.length_append, packetWords_length]

/-- The words of a packet, written out: the header and the payload, then the checksum byte as the distance of ACC
from 0xFF (R65, R125). -/
theorem packetWords_eq (buf : List Byte) (acc : Byte) :
    packetWords buf acc = ([0xFF#8, 0xFF#8] ++ buf).map (fun b => 0x2000#16 ||| zext16 b)
      ++ [0x2100#16 ||| zext16 (BitVec.ofNat 8 (0xFF - acc.toNat))] := by
  rw [packetWords, not8_eq_ofNat]
  rfl

/-- Settles O28: the mode decides what FRAME.BEGIN does, and no other word with OP 2 is legal. -/
theorem frameBeginOpensTheOperation : Obligations.FrameBeginOpensTheOperation := by
  refine ⟨fun s hm => ?_, fun s hm => ?_, fun s hm => ?_, ?_, fun s w hop hw hm => ?_⟩
  · rw [exec_frameBegin_of_idle hm]
    rfl
  · exact exec_frameBegin_of_open hm
  · exact exec_of_err hm (by simp) (by simp)
  · decide
  · exact acceptWord_of_misspelled (i := .frameBegin) hop (by decide) hw hm

/-- Settles O30: the two branches of `frameData`, the sum read on numbers. -/
theorem frameDataAppendsOrOverflows : Obligations.FrameDataAppendsOrOverflows := by
  refine ⟨fun s d hm hfull => ?_, fun s d hm hroom => ?_, encode_data⟩
  · rw [exec_data_of_frame hm, frameData_of_full hfull]
  · rw [exec_data_of_frame hm, frameData_of_room hroom, addByte_eq_ofNat]
    rfl

/-- Settles O32: in FRAME mode END is `frameEnd`, which emits the packet's words and no others. -/
theorem frameEndEmitsTheWholePacket : Obligations.FrameEndEmitsTheWholePacket := by
  refine ⟨fun s hm => ?_, fun s t hm h => ?_, by decide⟩
  · rw [exec_endOp_of_frame hm, frameEnd, packetWords_eq]
    rfl
  · rw [exec_endOp_of_frame hm] at h
    cases h
    exact frameEnd_pending_length s

end Sys2Proof.Machine
end

section
/-! SUPPORT. The control instructions (42_control.md, R140 to R143): what a step in ERR keeps, a mis-spelled word in every
mode, the STAT word written out, and ABORT, STATUS, DATA and END by mode, settled from these. -/

namespace Sys2Proof

open Machine

/-- A word with reserved bits set is illegal, whatever its OP (R62). -/
theorem legal_eq_false_of_rsvField {w : Word} (h : rsvField w ≠ 0#4) : legal w = false := by
  refine Bool.eq_false_iff.mpr fun hl => ?_
  obtain ⟨-, hrsv, -⟩ := (legal_eq_conditions w).mp hl
  exact h hrsv

/-- A word with an operandless instruction's OP but another spelling is illegal (R62, R72). -/
theorem legal_eq_false_of_misspelled {w : Word} {i : Instr} (hop : opField w = opcode i) (hi : opcode i ≠ 3#4)
    (hw : w ≠ encode i) : legal w = false :=
  Bool.eq_false_iff.mpr fun hl => hw (eq_encode_of_legal hl hop hi)

namespace Machine

/-! ### Illegal spellings, in and outside ERR -/

theorem takeIllegal_eq_ite (s : State) :
    takeIllegal s = if s.block.mode = .err then s else raiseFault .illegal s := by
  split_ifs with hm
  · exact takeIllegal_of_err hm
  · exact takeIllegal_of_ne_err hm

/-- A mis-spelled operandless instruction is ILLEGAL outside ERR and discarded in ERR (R161, R167). -/
theorem acceptWord_of_misspelled_eq_ite {w : Word} {i : Instr} (hop : opField w = opcode i) (hi : opcode i ≠ 3#4)
    (hw : w ≠ encode i) (s : State) :
    acceptWord w s = .next (countWord (if s.block.mode = .err then s else raiseFault .illegal s)) := by
  rw [acceptWord_of_illegal (legal_eq_false_of_misspelled hop hi hw), takeIllegal_eq_ite]
  rfl

/-! ### What ERR keeps -/

/-- In ERR no accepted word but ABORT touches the block (R167). -/
theorem acceptWord_block_of_err {w : Word} {s t : State} (hm : s.block.mode = .err) (hw : w ≠ 0x5000#16)
    (h : acceptWord w s = .next t) : t.block = s.block := by
  by_cases hs : w = 0x6000#16
  · subst hs
    rw [acceptWord_of_decode (i := .status) (by decide)] at h
    cases h
    rfl
  · rw [acceptWord_of_err hm hw hs] at h
    cases h
    rfl

/-- A step in ERR keeps the block, or it accepts ABORT, or it is reset (R140, R167). -/
theorem step_block_of_err {s t : State} (hm : s.block.mode = .err) (h : step s = .next t) :
    t.block = s.block ∨ (∃ rest, s.input = .word 0x5000#16 :: rest) ∨ (∃ p rest, s.input = .rst p :: rest) := by
  rcases step_next h with ⟨-, rfl⟩ | ⟨p, rest, hin, -⟩ | ⟨w, rest, -, -, rfl⟩ | ⟨w, rest, hin, -, -, hacc⟩
  · exact .inl (drain_block s)
  · exact .inr (.inr ⟨p, rest, hin⟩)
  · exact .inl (drain_block s)
  · by_cases hw : w = 0x5000#16
    · exact .inr (.inl ⟨rest, hw ▸ hin⟩)
    · have hblock := acceptWord_block_of_err (by simpa using hm) hw hacc
      exact .inl (by simpa using hblock)

/-- In ERR nothing but STATUS emits (R141, R167). -/
theorem exec_pending_of_err {i : Instr} {s t : State} (hm : s.block.mode = .err) (hi : i ≠ .status)
    (h : exec i s = .next t) : t.pending = s.pending := by
  by_cases ha : i = .abort
  · subst ha
    cases h
    rfl
  · rw [exec_of_err hm ha hi] at h
    cases h
    rfl

/-- The STAT word with its two fields in place: ERR_CODE in bits 7 to 4, MODE in bits 1 to 0 (R32, R141). -/
theorem statWord_eq (b : Block) :
    statWord b = 0x4100#16 ||| (b.errCode.setWidth 16 <<< 4) ||| b.mode.bits.setWidth 16 := by
  have hcode : (b.errCode.setWidth 8 <<< 4).setWidth 16 = b.errCode.setWidth 16 <<< 4 := by bv_omega
  have hmode : (b.mode.bits.setWidth 8).setWidth 16 = b.mode.bits.setWidth 16 := by bv_omega
  rw [statWord, zext16, statusByte, BitVec.setWidth_or, hcode, hmode, BitVec.or_assoc]

/-- Settles O33: ABORT is `returnToIdle` in every mode, and a step in ERR that is neither ABORT nor reset keeps MODE. -/
theorem abortReturnsToIdle : Obligations.AbortReturnsToIdle := by
  refine ⟨fun s => rfl, by decide, fun s w hop hw => ?_, fun s t hm h ht => ?_⟩
  · exact acceptWord_of_misspelled_eq_ite (i := .abort) hop (by decide) hw s
  · exact (step_block_of_err hm h).resolve_left fun hblock => ht (hblock ▸ hm)

/-- Settles O34: STATUS emits `statWord` in every mode, and in ERR every other instruction leaves the output alone. -/
theorem statusReportsAndChangesNothing : Obligations.StatusReportsAndChangesNothing := by
  refine ⟨fun s => ?_, by decide, fun i s t hm h ht => ?_, fun s w hop hw => ?_⟩
  · rw [← statWord_eq]
    rfl
  · by_contra hi
    exact ht (exec_pending_of_err hm hi h)
  · exact acceptWord_of_misspelled_eq_ite (i := .status) hop (by decide) hw s

/-! ### DATA and END, routed by mode -/

theorem exec_data_of_idle {s : State} (hm : s.block.mode = .idle) (d : Byte) :
    exec (.data d) s = .next (raiseFault .sequence s) := by
  simp [exec, execData, hm]

theorem exec_endOp_of_idle {s : State} (hm : s.block.mode = .idle) :
    exec .endOp s = .next (raiseFault .sequence s) := by
  simp [exec, execEnd, hm]

/-- SKIP > 0 of the rules, as the model asks it (R105, R106). -/
theorem skip_pos_iff {k : BitVec 2} : 0 < k.toNat ↔ k ≠ 0#2 := by
  bv_omega

/-- Settles O35: one case for each mode, and in CSUM and FRAME one for each side of the arm's question. -/
theorem dataIsRoutedByMode : Obligations.DataIsRoutedByMode := by
  refine ⟨fun s d => ?_, fun d => ?_, fun s w _ hrsv hm => ?_⟩
  · split
    next hm => exact exec_data_of_idle hm d
    next hm =>
      rw [exec_data_of_csum hm]
      rcases csumData_cases d s with ⟨hk, hdata⟩ | ⟨hk, hdata⟩
      · rw [hdata, if_pos (skip_pos_iff.mpr hk)]
        rfl
      · rw [hdata, if_neg (by simp [hk])]
        rfl
    next hm =>
      rw [exec_data_of_frame hm]
      rcases frameData_cases d s with ⟨hfull, hdata⟩ | ⟨hroom, hdata⟩
      · rw [hdata, if_pos hfull]
      · rw [hdata, if_neg hroom]
        rfl
    next hm => exact exec_of_err hm (by simp) (by simp)
  · have hdec : decode (0x3000#16 ||| zext16 d) = .ok (.data d) := encode_data d ▸ decode_encode (.data d)
    exact ⟨legal_of_decode hdec, hdec⟩
  · rw [acceptWord_of_illegal (legal_eq_false_of_rsvField hrsv), takeIllegal_of_ne_err hm]
    rfl

/-- Settles O36: one case for each mode, and in CSUM one for each side of the question whether two bytes have come. -/
theorem endIsRoutedByMode : Obligations.EndIsRoutedByMode := by
  refine ⟨fun s => ?_, by decide, fun s w hop hw hm => ?_⟩
  · split
    next hm => exact exec_endOp_of_idle hm
    next hm =>
      rw [exec_endOp_of_csum hm]
      rcases csumEnd_cases s with ⟨hk, hend⟩ | ⟨hk, hend⟩
      · rw [hend, if_pos (skip_pos_iff.mpr hk)]
      · rw [hend, if_neg (by simp [hk])]
        rfl
    next hm =>
      rw [exec_endOp_of_frame hm]
      rfl
    next hm => exact exec_of_err hm (by simp) (by simp)
  · exact acceptWord_of_misspelled (i := .endOp) hop (by decide) hw hm

end Machine
end Sys2Proof
end

section
/-! SUPPORT. The fault rules (60_exceptions.md, R160 to R171): the faults an accepted word gives, read in R168's order, the
two kinds of step (a fault entry, or no fault at all), and the statements of that family settled from these. -/

namespace Sys2Proof

/-- Two instructions never share a word (R72). -/
theorem encode_injective : Function.Injective encode := by
  intro i j h
  have hdec : decode (encode i) = .ok j := h ▸ decode_encode j
  exact Except.ok.inj ((decode_encode i).symm.trans hdec)

theorem opField_encode (i : Instr) : opField (encode i) = opcode i := by
  obtain ⟨hop, -, -⟩ := decode_ok_fields (decode_encode i)
  exact hop

theorem legal_encode (i : Instr) : legal (encode i) = true :=
  legal_of_decode (decode_encode i)

theorem exists_encode_of_legal {w : Word} (h : legal w = true) : ∃ i, encode i = w := by
  obtain ⟨i, hdec⟩ := exists_decode_of_legal h
  exact ⟨i, encode_of_decode hdec⟩

namespace Machine

/-! ### The fault entry, an illegal word, a misplaced word (R165, R161, R162) -/

/-- Settles O16: the lemmas of `raiseFault` for the two fields of the port and the block; every other field but the
history is the old one. -/
theorem faultEntryDropsTheOperation : Obligations.FaultEntryDropsTheOperation :=
  fun code s => ⟨raiseFault_block code s, raiseFault_pending code s, rfl⟩

theorem acceptWord_of_illegal_outside_err {w : Word} {s : State} (hl : legal w = false) (hm : s.block.mode ≠ .err) :
    acceptWord w s = .next (countWord (raiseFault .illegal s)) := by
  rw [acceptWord_of_illegal hl, takeIllegal_of_ne_err hm]
  rfl

theorem acceptWord_of_illegal_in_err {w : Word} {s : State} (hl : legal w = false) (hm : s.block.mode = .err) :
    acceptWord w s = .next (countWord s) := by
  rw [acceptWord_of_illegal hl, takeIllegal_of_err hm]
  rfl

/-- Settles O18: the mode decides between `raiseFault` and a discard. -/
theorem illegalWordFaultsOutsideErr : Obligations.IllegalWordFaultsOutsideErr :=
  ⟨fun _ _ => acceptWord_of_illegal_outside_err, fun _ _ => acceptWord_of_illegal_in_err, by decide⟩

/-- Settles O19: each cell of R162's table is the instruction's own lemma for that mode. -/
theorem misplacedWordFaultsSequence : Obligations.MisplacedWordFaultsSequence := by
  refine ⟨fun s hm => ?_, fun s d hm => ?_, fun s => ?_⟩
  · exact ⟨exec_csumBegin_of_open hm, exec_frameBegin_of_open hm, raiseFault_pending .sequence s,
      raiseFault_block .sequence s⟩
  · exact ⟨exec_data_of_idle hm d, exec_endOp_of_idle hm⟩
  · exact ⟨returnToIdle s, emit [statWord s.block] s, rfl, returnToIdle_history s, rfl, emit_history _ s⟩

/-! ### What ERR answers (R167) -/

/-- The STAT word in ERR: MODE's two bits are both set (R32, R141). -/
theorem statWord_of_err {b : Block} (hm : b.mode = .err) :
    statWord b = 0x4100#16 ||| (b.errCode.setWidth 16 <<< 4) ||| 3#16 := by
  have hbits : Mode.err.bits.setWidth 16 = 3#16 := by decide
  rw [statWord_eq, hm, hbits]

/-- Settles O20: ABORT is `returnToIdle`, STATUS emits the STAT word, every other word is discarded; and a step that
changes the block at all is on ABORT or reset. -/
theorem errModeDiscardsAllButAbortAndStatus : Obligations.ErrModeDiscardsAllButAbortAndStatus := by
  refine ⟨fun s w hm ha hs => ?_, fun s _ => ?_, fun s hm => ?_, fun s t hm h hcode => ?_⟩
  · exact acceptWord_of_err hm ha hs
  · exact acceptWord_encode .abort s
  · rw [← statWord_of_err hm]
    exact acceptWord_encode .status s
  · refine (step_block_of_err hm h).resolve_left fun hblock => hcode ?_
    rw [hblock]

/-! ### The fault a word gives, in R168's order -/

/-- The fault an instruction gives in a state: first whether it fits the mode (R162), then its arm's own check (R163,
R164). -/
def instrFault (i : Instr) (s : State) : Option FaultCode :=
  match i with
  | .csumBegin => if s.block.mode = .csum ∨ s.block.mode = .frame then some .sequence else none
  | .frameBegin => if s.block.mode = .csum ∨ s.block.mode = .frame then some .sequence else none
  | .data _ =>
    if s.block.mode = .idle then some .sequence
    else if s.block.mode = .frame ∧ s.block.buf.length = s.cfg.maxPayload then some .overflow else none
  | .endOp =>
    if s.block.mode = .idle then some .sequence
    else if s.block.mode = .csum ∧ s.block.skip ≠ 0#2 then some .short else none
  | .abort => none
  | .status => none

/-- The fault a word gives: R168's checks as they are written there. -/
def wordFault (w : Word) (s : State) : Option FaultCode :=
  if s.block.mode = .err then none
  else if legal w = false then some .illegal
  else if ((w = 0x1000#16 ∨ w = 0x2000#16) ∧ (s.block.mode = .csum ∨ s.block.mode = .frame))
      ∨ ((opField w = 3#4 ∨ w = 0x4000#16) ∧ s.block.mode = .idle) then
    some .sequence
  else if w = 0x4000#16 ∧ s.block.mode = .csum ∧ s.block.skip ≠ 0#2 then
    some .short
  else if opField w = 3#4 ∧ s.block.mode = .frame ∧ s.block.buf.length = s.cfg.maxPayload then
    some .overflow
  else none

/-- Nothing is recorded between `s` and `t`, and ERR is not entered. -/
def TakesNoFault (s t : State) : Prop :=
  t.history = s.history ∧ (t.block.mode = .err → s.block.mode = .err)

theorem TakesNoFault.refl (s : State) : TakesNoFault s s :=
  ⟨rfl, id⟩

theorem TakesNoFault.countWord {s t : State} (h : TakesNoFault s t) : TakesNoFault s (countWord t) :=
  h

theorem instrFault_of_err {s : State} (hm : s.block.mode = .err) (i : Instr) : instrFault i s = none := by
  cases i <;> simp [instrFault, hm]

/-- On a legal word R168's checks ask what `instrFault` asks of the instruction. -/
theorem wordFault_encode (i : Instr) (s : State) : wordFault (encode i) s = instrFault i s := by
  by_cases hm : s.block.mode = .err
  · rw [instrFault_of_err hm, wordFault, if_pos hm]
  have hcsum : encode i = 0x1000#16 ↔ i = .csumBegin := encode_injective.eq_iff (b := .csumBegin)
  have hframe : encode i = 0x2000#16 ↔ i = .frameBegin := encode_injective.eq_iff (b := .frameBegin)
  have hend : encode i = 0x4000#16 ↔ i = .endOp := encode_injective.eq_iff (b := .endOp)
  simp only [wordFault, hm, legal_encode, opField_encode, hcsum, hframe, hend]
  cases i <;> simp [instrFault, opcode]

/-- R166: an instruction that gives a fault does the fault entry and nothing else. -/
theorem exec_of_instrFault_some {i : Instr} {s : State} {c : FaultCode} (hf : instrFault i s = some c) :
    exec i s = .next (raiseFault c s) := by
  cases i with
  | csumBegin =>
    obtain ⟨hm, rfl⟩ : (s.block.mode = .csum ∨ s.block.mode = .frame) ∧ .sequence = c := by
      simpa [instrFault] using hf
    exact exec_csumBegin_of_open hm
  | frameBegin =>
    obtain ⟨hm, rfl⟩ : (s.block.mode = .csum ∨ s.block.mode = .frame) ∧ .sequence = c := by
      simpa [instrFault] using hf
    exact exec_frameBegin_of_open hm
  | data d =>
    simp only [instrFault] at hf
    split_ifs at hf with hm hfull
    · cases hf
      exact exec_data_of_idle hm d
    · cases hf
      obtain ⟨hframe, hfull⟩ := hfull
      rw [exec_data_of_frame hframe, frameData_of_full hfull]
  | endOp =>
    simp only [instrFault] at hf
    split_ifs at hf with hm hshort
    · cases hf
      exact exec_endOp_of_idle hm
    · cases hf
      obtain ⟨hcsum, hskip⟩ := hshort
      rw [exec_endOp_of_csum hcsum, csumEnd_of_skip_ne_zero hskip]
  | abort => cases hf
  | status => cases hf

/-- In ERR no instruction records a fault (R170). -/
theorem exec_takesNoFault_of_err {i : Instr} {s t : State} (hm : s.block.mode = .err) (h : exec i s = .next t) :
    TakesNoFault s t := by
  refine ⟨?_, fun _ => hm⟩
  by_cases ha : i = .abort
  · subst ha
    cases h
    rfl
  by_cases hs : i = .status
  · subst hs
    cases h
    rfl
  cases (exec_of_err hm ha hs).symm.trans h
  rfl

/-- Where the mode fits and the arm's check passes, nothing is recorded: one case for each such branch of each arm. -/
theorem exec_of_instrFault_none {i : Instr} {s t : State} (hf : instrFault i s = none) (h : exec i s = .next t) :
    TakesNoFault s t := by
  cases i with
  | csumBegin =>
    cases hm : s.block.mode with
    | csum | frame => simp [instrFault, hm] at hf
    | idle =>
      cases (exec_csumBegin_of_idle hm).symm.trans h
      simp [TakesNoFault, openCsum]
    | err => exact exec_takesNoFault_of_err hm h
  | frameBegin =>
    cases hm : s.block.mode with
    | csum | frame => simp [instrFault, hm] at hf
    | idle =>
      cases (exec_frameBegin_of_idle hm).symm.trans h
      simp [TakesNoFault, openFrame]
    | err => exact exec_takesNoFault_of_err hm h
  | data d =>
    cases hm : s.block.mode with
    | idle => simp [instrFault, hm] at hf
    | csum =>
      cases (exec_data_of_csum hm d).symm.trans h
      rcases csumData_cases d s with ⟨-, hdata⟩ | ⟨-, hdata⟩ <;> simp [TakesNoFault, hdata]
    | frame =>
      have hroom : s.block.buf.length ≠ s.cfg.maxPayload := by simpa [instrFault, hm] using hf
      cases (exec_data_of_frame hm d).symm.trans h
      simp [TakesNoFault, frameData_of_room hroom]
    | err => exact exec_takesNoFault_of_err hm h
  | endOp =>
    cases hm : s.block.mode with
    | idle => simp [instrFault, hm] at hf
    | csum =>
      have hskip : s.block.skip = 0#2 := by simpa [instrFault, hm] using hf
      cases (exec_endOp_of_csum hm).symm.trans h
      simp [TakesNoFault, csumEnd_of_skip_eq_zero hskip]
    | frame =>
      cases (exec_endOp_of_frame hm).symm.trans h
      simp [TakesNoFault, frameEnd]
    | err => exact exec_takesNoFault_of_err hm h
  | abort =>
    cases h
    simp [TakesNoFault, Block.idle]
  | status =>
    cases h
    simp [TakesNoFault]

/-- Accepting a word is its fault's entry, where R168's checks find a fault (R166). -/
theorem acceptWord_of_wordFault_some {w : Word} {s : State} {c : FaultCode} (hf : wordFault w s = some c) :
    acceptWord w s = .next (countWord (raiseFault c s)) := by
  cases hl : legal w with
  | true =>
    obtain ⟨i, rfl⟩ := exists_encode_of_legal hl
    rw [acceptWord_encode, exec_of_instrFault_some (wordFault_encode i s ▸ hf)]
    rfl
  | false =>
    obtain ⟨hm, rfl⟩ : s.block.mode ≠ .err ∧ .illegal = c := by simpa [wordFault, hl] using hf
    exact acceptWord_of_illegal_outside_err hl hm

/-- Accepting a word records nothing, where R168's checks find no fault. -/
theorem acceptWord_of_wordFault_none {w : Word} {s t : State} (hf : wordFault w s = none)
    (h : acceptWord w s = .next t) : TakesNoFault s t := by
  cases hl : legal w with
  | true =>
    obtain ⟨i, rfl⟩ := exists_encode_of_legal hl
    obtain ⟨u, hx⟩ := exec_total i s
    rw [acceptWord_encode, hx] at h
    cases h
    exact (exec_of_instrFault_none (wordFault_encode i s ▸ hf) hx).countWord
  | false =>
    have hm : s.block.mode = .err := by simpa [wordFault, hl] using hf
    cases (acceptWord_of_illegal_in_err hl hm).symm.trans h
    exact (TakesNoFault.refl s).countWord

/-- R168: the history after a word is the one before it, with the word's fault, if it gives one, behind it. -/
theorem acceptWord_history {w : Word} {s t : State} (h : acceptWord w s = .next t) :
    t.history.map FaultRecord.code = s.history.map FaultRecord.code ++ (wordFault w s).toList := by
  cases hf : wordFault w s with
  | some c =>
    cases (acceptWord_of_wordFault_some hf).symm.trans h
    simp
  | none =>
    obtain ⟨hhist, -⟩ := acceptWord_of_wordFault_none hf h
    simp [hhist]

/-- Settles O21: every word is accepted, and its fault is `wordFault`, whose checks are the statement's chain. -/
theorem wordGivesTheFirstFaultThatApplies : Obligations.WordGivesTheFirstFaultThatApplies := by
  refine ⟨fun s w => ?_, fun s hm => ?_⟩
  · obtain ⟨t, ht⟩ := acceptWord_total w s
    refine ⟨t, ht, (acceptWord_history ht).trans ?_⟩
    simp only [wordFault, apply_ite Option.toList, Option.toList_some, Option.toList_none]
  · exact acceptWord_of_illegal_outside_err (by decide) (by simp [hm])

/-! ### The level output err_o (R171) -/

theorem errO_eq_true_iff (b : Block) : errO b = true ↔ b.mode = .err :=
  decide_eq_true_iff

theorem errO_eq_false_iff (b : Block) : errO b = false ↔ b.mode ≠ .err :=
  decide_eq_false_iff_not

/-- A step is the fault entry of the word it accepts, or it records nothing and does not enter ERR. -/
theorem step_raises_or_takesNoFault {s t : State} (h : step s = .next t) :
    (∃ w rest c, s.input = .word w :: rest ∧ t = countWord (raiseFault c (setInput rest (drain s))))
      ∨ TakesNoFault s t := by
  rcases step_next h with ⟨-, rfl⟩ | ⟨p, rest, -, rfl⟩ | ⟨w, rest, -, -, rfl⟩ | ⟨w, rest, hin, -, -, hacc⟩
  · exact .inr (by simp [TakesNoFault])
  · exact .inr (by simp [TakesNoFault, Block.idle])
  · exact .inr (by simp [TakesNoFault])
  · cases hf : wordFault w (setInput rest (drain s)) with
    | some c =>
      cases (acceptWord_of_wordFault_some hf).symm.trans hacc
      exact .inl ⟨w, rest, c, hin, rfl⟩
    | none =>
      have hno := acceptWord_of_wordFault_none hf hacc
      exact .inr (by simpa [TakesNoFault] using hno)

/-- Settles O26: err_o rises with the one kind of step that enters ERR, and a step in ERR that is on neither ABORT nor
reset keeps the block. -/
theorem errOutputFollowsTheMode : Obligations.ErrOutputFollowsTheMode := by
  refine ⟨errO_eq_true_iff, fun s t h hs => ?_, fun s t h hs ht => ?_⟩
  · rw [errO_eq_false_iff] at hs
    rw [errO_eq_true_iff]
    rcases step_raises_or_takesNoFault h with ⟨w, rest, c, -, rfl⟩ | ⟨hhist, hmode⟩
    · simp [faultBlock]
    · exact iff_of_false (fun ht => hs (hmode ht)) (not_not.mpr hhist)
  · rw [errO_eq_true_iff] at hs
    refine (step_block_of_err hs h).resolve_left fun hblock => ?_
    exact (errO_eq_false_iff _).mp ht (hblock ▸ hs)

end Machine
end Sys2Proof
end

section
/-! SUPPORT. Reset (70_reset_and_hazards.md section 1, R190): which instructions, words and steps can end in IDLE with a
block they did not start from, and the statement of that family settled from these. -/

namespace Sys2Proof.Machine

/-! ### The ways into IDLE -/

/-- An instruction other than END and ABORT that ends in IDLE has not touched the block: the other arms that write the
block leave MODE at CSUM, FRAME or ERR. -/
theorem exec_block_of_idle {i : Instr} {s t : State} (h : exec i s = .next t) (hend : i ≠ .endOp) (habort : i ≠ .abort)
    (hidle : t.block.mode = .idle) : t.block = s.block := by
  rcases exec_cases h with rfl | ⟨-, c, rfl⟩ | ⟨-, -, rfl⟩ | ⟨-, -, rfl⟩ | ⟨d, -, hm, -, rfl⟩ | ⟨d, -, hm, -, rfl⟩ |
    ⟨d, -, hm, -, rfl⟩ | ⟨hi, -⟩ | ⟨hi, -⟩ | ⟨hi, -⟩ | ⟨-, rfl⟩
  · rfl
  · cases hidle
  · cases hidle
  · cases hidle
  · cases hm.symm.trans hidle
  · cases hm.symm.trans hidle
  · cases hm.symm.trans hidle
  · exact absurd hi hend
  · exact absurd hi hend
  · exact absurd hi habort
  · rfl

/-- An illegal word that ends in IDLE has not touched the block; outside ERR it ends in ERR (R161). -/
theorem takeIllegal_block_of_idle {s : State} (hidle : (takeIllegal s).block.mode = .idle) :
    (takeIllegal s).block = s.block := by
  rcases takeIllegal_cases s with ⟨-, h⟩ | ⟨-, h⟩
  · rw [h]
  · rw [h] at hidle
    cases hidle

theorem acceptWord_block_of_idle {w : Word} {s t : State} (h : acceptWord w s = .next t) (hend : w ≠ 0x4000#16)
    (habort : w ≠ 0x5000#16) (hidle : t.block.mode = .idle) : t.block = s.block := by
  rcases acceptWord_next h with ⟨i, u, hdec, hx, rfl⟩ | ⟨e, -, rfl⟩
  · have hw : encode i = w := encode_of_decode hdec
    have hiend : i ≠ .endOp := by rintro rfl; exact hend hw.symm
    have hiabort : i ≠ .abort := by rintro rfl; exact habort hw.symm
    exact exec_block_of_idle (t := u) hx hiend hiabort hidle
  · exact takeIllegal_block_of_idle hidle

/-- A step that ends in IDLE keeps the block, or it is reset, or it accepts END or ABORT. -/
theorem step_block_of_idle {s t : State} (h : step s = .next t) (hidle : t.block.mode = .idle) :
    t.block = s.block ∨ (∃ p rest, s.input = .rst p :: rest) ∨ (∃ rest, s.input = .word 0x4000#16 :: rest)
      ∨ (∃ rest, s.input = .word 0x5000#16 :: rest) := by
  rcases step_next h with ⟨-, rfl⟩ | ⟨p, rest, hin, -⟩ | ⟨w, rest, -, -, rfl⟩ | ⟨w, rest, hin, -, -, hacc⟩
  · exact .inl (drain_block s)
  · exact .inr (.inl ⟨p, rest, hin⟩)
  · exact .inl (drain_block s)
  · by_cases hend : w = 0x4000#16
    · exact .inr (.inr (.inl ⟨rest, hend ▸ hin⟩))
    by_cases habort : w = 0x5000#16
    · exact .inr (.inr (.inr ⟨rest, habort ▸ hin⟩))
    · have hblock := acceptWord_block_of_idle hacc hend habort hidle
      exact .inl (by simpa using hblock)

/-! ### rst -/

/-- rst is never held off, and a block that was never reset takes it too (R190, R191). -/
theorem step_of_rst {s : State} {p : Option Word} {rest : List Event} (hin : s.input = .rst p :: rest) :
    step s = .next (resetBlock (setInput rest (drain s))) := by
  simp [step, cycle, inputSide, hin]

/-- Settles O12: a step on rst is `resetBlock` after the consumer's turn, and a step that ends in the reset block without
having kept it is on reset, END or ABORT. -/
theorem resetRestoresEveryField : Obligations.ResetRestoresEveryField := by
  refine ⟨fun s p rest hin => ?_, fun s t hs h ht => ?_⟩
  · exact ⟨_, step_of_rst hin, rfl, rfl, by simp, rfl, by simp⟩
  · refine (step_block_of_idle h (congrArg Block.mode ht)).resolve_left fun hblock => hs ?_
    exact hblock.symm.trans ht

end Sys2Proof.Machine
end

section
/-! SUPPORT. The instructions listed one by one, and the statements about the encoder, the decoder and the legal words
settled from that list (30_encoding.md sections 1 to 4, R60 to R63, R72). -/

namespace Sys2Proof

/-! ### The legal words are the words of the instructions -/

/-- Every instruction, in the order in which `legalWords` lists their words. -/
def legalInstrs : List Instr :=
  [.csumBegin, .frameBegin, .endOp, .abort, .status]
    ++ (List.range 256).map (fun d => Instr.data (BitVec.ofNat 8 d))

theorem zext16_ofNat {d : Nat} (hd : d < 256) : Machine.zext16 (BitVec.ofNat 8 d) = BitVec.ofNat 16 d := by
  unfold Machine.zext16
  bv_omega

theorem legalWords_eq_map_encode : legalWords = legalInstrs.map encode := by
  have hdata : ∀ d ∈ List.range 256, 0x3000#16 ||| BitVec.ofNat 16 d = encode (.data (BitVec.ofNat 8 d)) := by
    intro d hd
    rw [encode_data, zext16_ofNat (List.mem_range.mp hd)]
  rw [legalWords, legalInstrs, List.map_append, List.map_map, List.map_congr_left hdata]
  rfl

theorem mem_legalInstrs (i : Instr) : i ∈ legalInstrs := by
  cases i with
  | data d => exact List.mem_append_right _ (List.mem_map.mpr ⟨d.toNat, List.mem_range.mpr d.isLt, by simp⟩)
  | csumBegin | frameBegin | endOp | abort | status => simp [legalInstrs]

theorem nodup_legalInstrs : legalInstrs.Nodup := by
  have hdata : ∀ x ∈ List.range 256, ∀ y ∈ List.range 256,
      Instr.data (BitVec.ofNat 8 x) = Instr.data (BitVec.ofNat 8 y) → x = y := by
    intro x hx y hy hxy
    have hbyte : BitVec.ofNat 8 x = BitVec.ofNat 8 y := Instr.data.inj hxy
    rw [List.mem_range] at hx hy
    bv_omega
  refine List.Nodup.append (by decide) (List.nodup_range.map_on hdata) fun i hi hdi => ?_
  obtain ⟨d, -, rfl⟩ := List.mem_map.mp hdi
  simp at hi

theorem legal_iff_exists_encode (w : Word) : legal w = true ↔ ∃ i, encode i = w :=
  ⟨exists_encode_of_legal, fun ⟨i, hi⟩ => hi ▸ legal_encode i⟩

theorem legal_iff_exists_decode (w : Word) : legal w = true ↔ ∃ i, decode w = .ok i :=
  ⟨exists_decode_of_legal, fun ⟨_, hi⟩ => legal_of_decode hi⟩

theorem legal_iff_mem_legalWords (w : Word) : legal w = true ↔ w ∈ legalWords := by
  simp [legal_iff_exists_encode, legalWords_eq_map_encode, mem_legalInstrs]

/-! ### The DATA words, as a range of numbers -/

theorem toNat_encode_data (d : Byte) : (encode (.data d)).toNat = 0x3000 + d.toNat := by
  have hor : (0x3000 ||| d.toNat) = 2 ^ 12 * 3 + d.toNat :=
    (Nat.two_pow_add_eq_or_of_lt (i := 12) (by omega) 3).symm
  rw [encode_data, BitVec.toNat_or, Machine.zext16, BitVec.toNat_setWidth_of_le (by decide)]
  exact hor

theorem encode_data_of_range {w : Word} (hlo : 0x3000 ≤ w.toNat) (hhi : w.toNat ≤ 0x30FF) :
    encode (.data (BitVec.ofNat 8 (w.toNat - 0x3000))) = w := by
  apply BitVec.eq_of_toNat_eq
  rw [toNat_encode_data, BitVec.toNat_ofNat]
  omega

/-- The legal words by their numbers: the DATA range and the words of the five other instructions (R62). -/
theorem legal_iff_toNat (w : Word) : legal w = true ↔
    ((0x3000 ≤ w.toNat ∧ w.toNat ≤ 0x30FF) ∨ w = 0x1000#16 ∨ w = 0x2000#16 ∨ w = 0x4000#16 ∨ w = 0x5000#16
      ∨ w = 0x6000#16) := by
  rw [legal_iff_exists_encode]
  constructor
  · rintro ⟨i, rfl⟩
    cases i with
    | data d =>
      rw [toNat_encode_data]
      exact .inl (by omega)
    | csumBegin | frameBegin | endOp | abort | status => exact .inr (by decide)
  · rintro (⟨hlo, hhi⟩ | rfl | rfl | rfl | rfl | rfl)
    · exact ⟨_, encode_data_of_range hlo hhi⟩
    · exact ⟨.csumBegin, rfl⟩
    · exact ⟨.frameBegin, rfl⟩
    · exact ⟨.endOp, rfl⟩
    · exact ⟨.abort, rfl⟩
    · exact ⟨.status, rfl⟩

/-! ### The statements -/

/-- Settles O1: `decode_encode`, which needs no premise, since every instruction is well formed. -/
theorem decodeOfEncodeIsTheInstruction : Obligations.DecodeOfEncodeIsTheInstruction :=
  fun i _ => decode_encode i

/-- Settles O2: the three fields of a decoded word are those that the encoder joins. -/
theorem encodeOfDecodeIsTheWord : Obligations.EncodeOfDecodeIsTheWord :=
  fun _ _ => encode_of_decode

/-- Settles O3: the legal words are the words of `legalInstrs`, a list without repetition because `encode` is injective. -/
theorem decoderAcceptsExactlyTheLegalWords : Obligations.DecoderAcceptsExactlyTheLegalWords := by
  refine ⟨fun w => ?_, legal_iff_exists_decode, legal_iff_toNat, legal_iff_mem_legalWords, ?_, ?_⟩
  · rw [← legal_iff_exists_decode, legal_eq_conditions]
  · rw [legalWords_eq_map_encode]
    exact nodup_legalInstrs.map encode_injective
  · simp [legalWords]

/-- Settles O4: the decoder computed on each of the seventeen words. -/
theorem writtenOutWordsDecode : Obligations.WrittenOutWordsDecode := by
  unfold Obligations.WrittenOutWordsDecode
  decide

end Sys2Proof
end

section
/-! SUPPORT. The rows of R26 as blocks written out, the STATUS byte, the fields of an output word (R64), and the
statements about the output words and the fault codes settled from these (10_state.md section 4, 30_encoding.md
section 2, 60_exceptions.md section 1). -/

namespace Sys2Proof.Machine

/-! ### R26's table as a list of blocks -/

/-- The block of an open framing operation with payload `p` so far (the FRAME row of R26). -/
def frameBlock (p : List Byte) : Block :=
  { mode := .frame, acc := accSum p, skip := 0#2, buf := p, errCode := 0#4 }

/-- The codes that the ERR row of R26 allows are those of the four faults (R160). -/
theorem exists_faultCode_of_range : ∀ c : BitVec 4, 1 ≤ c.toNat → c.toNat ≤ 4 → ∃ f : FaultCode, f.bits = c := by
  have hcodes : ∀ c : BitVec 4, 1 ≤ c.toNat → c.toNat ≤ 4 → c = 1#4 ∨ c = 2#4 ∨ c = 3#4 ∨ c = 4#4 := by decide
  intro c hlo hhi
  rcases hcodes c hlo hhi with rfl | rfl | rfl | rfl
  · exact ⟨.illegal, rfl⟩
  · exact ⟨.sequence, rfl⟩
  · exact ⟨.short, rfl⟩
  · exact ⟨.overflow, rfl⟩

theorem eq_idle_of_blockWf {max : Nat} {b : Block} (h : blockWf max b = true) (hm : b.mode = .idle) :
    b = Block.idle := by
  obtain ⟨mode, acc, skip, buf, errCode⟩ := b
  subst hm
  simp only [blockWf, Bool.and_eq_true, decide_eq_true_eq] at h
  obtain ⟨⟨⟨rfl, rfl⟩, rfl⟩, rfl⟩ := h
  rfl

theorem eq_csumBlock_of_blockWf {max : Nat} {b : Block} (h : blockWf max b = true) (hm : b.mode = .csum) :
    b = csumBlock b.skip b.acc ∧ (b.skip = 0#2 ∨ (b.skip.toNat ≤ 2 ∧ b.acc = 0#8)) := by
  obtain ⟨mode, acc, skip, buf, errCode⟩ := b
  subst hm
  simp only [blockWf, Bool.and_eq_true, Bool.or_eq_true, decide_eq_true_eq] at h
  obtain ⟨⟨hskip, rfl⟩, rfl⟩ := h
  exact ⟨rfl, hskip⟩

theorem eq_frameBlock_of_blockWf {max : Nat} {b : Block} (h : blockWf max b = true) (hm : b.mode = .frame) :
    b = frameBlock b.buf ∧ b.buf.length ≤ max := by
  obtain ⟨mode, acc, skip, buf, errCode⟩ := b
  subst hm
  simp only [blockWf, Bool.and_eq_true, decide_eq_true_eq] at h
  obtain ⟨⟨⟨rfl, rfl⟩, hlen⟩, rfl⟩ := h
  exact ⟨rfl, hlen⟩

theorem eq_faultBlock_of_blockWf {max : Nat} {b : Block} (h : blockWf max b = true) (hm : b.mode = .err) :
    ∃ c, b = faultBlock c := by
  obtain ⟨mode, acc, skip, buf, errCode⟩ := b
  subst hm
  simp only [blockWf, Bool.and_eq_true, decide_eq_true_eq] at h
  obtain ⟨⟨⟨rfl, rfl⟩, rfl⟩, hlo, hhi⟩ := h
  obtain ⟨c, rfl⟩ := exists_faultCode_of_range errCode hlo hhi
  exact ⟨c, rfl⟩

theorem blockWf_idle (max : Nat) : blockWf max Block.idle = true := by
  simp [blockWf, Block.idle]

theorem blockWf_csumBlock {max : Nat} {k : BitVec 2} {a : Byte} (h : k = 0#2 ∨ (k.toNat ≤ 2 ∧ a = 0#8)) :
    blockWf max (csumBlock k a) = true := by
  rcases h with rfl | ⟨hk, rfl⟩
  · simp [blockWf, csumBlock]
  · simp [blockWf, csumBlock, hk]

theorem blockWf_frameBlock {max : Nat} {p : List Byte} (h : p.length ≤ max) : blockWf max (frameBlock p) = true := by
  simp [blockWf, frameBlock, h]

theorem blockWf_faultBlock (max : Nat) (c : FaultCode) : blockWf max (faultBlock c) = true := by
  cases c <;> simp [blockWf, faultBlock, FaultCode.bits]

/-- The rows of R26, each as the blocks that stand in it. -/
theorem blockWf_iff (max : Nat) (b : Block) :
    blockWf max b = true ↔
      b = Block.idle
      ∨ (∃ k a, b = csumBlock k a ∧ (k = 0#2 ∨ (k.toNat ≤ 2 ∧ a = 0#8)))
      ∨ (∃ p, b = frameBlock p ∧ p.length ≤ max)
      ∨ (∃ c, b = faultBlock c) := by
  constructor
  · intro h
    cases hm : b.mode with
    | idle => exact .inl (eq_idle_of_blockWf h hm)
    | csum => exact .inr (.inl ⟨_, _, eq_csumBlock_of_blockWf h hm⟩)
    | frame => exact .inr (.inr (.inl ⟨_, eq_frameBlock_of_blockWf h hm⟩))
    | err => exact .inr (.inr (.inr (eq_faultBlock_of_blockWf h hm)))
  · rintro (rfl | ⟨k, a, rfl, hka⟩ | ⟨p, rfl, hlen⟩ | ⟨c, rfl⟩)
    · exact blockWf_idle max
    · exact blockWf_csumBlock hka
    · exact blockWf_frameBlock hlen
    · exact blockWf_faultBlock max c

/-! ### The STATUS byte (R32) -/

/-- The fields of a byte with a code in its high half and a mode in its two low bits. -/
theorem statusFields : ∀ (c : BitVec 4) (m : BitVec 2),
    ((c.setWidth 8 <<< 4) ||| m.setWidth 8).extractLsb' 4 4 = c
      ∧ ((c.setWidth 8 <<< 4) ||| m.setWidth 8).extractLsb' 2 2 = 0#2
      ∧ ((c.setWidth 8 <<< 4) ||| m.setWidth 8).extractLsb' 0 2 = m := by
  decide

/-- A well-formed block shows one of R32's seven values, since only MODE and ERR_CODE reach the byte. -/
theorem statusByte_mem_statusValues {max : Nat} {b : Block} (h : blockWf max b = true) :
    statusByte b ∈ statusValues := by
  rcases (blockWf_iff max b).mp h with rfl | ⟨k, a, rfl, -⟩ | ⟨p, rfl, -⟩ | ⟨c, rfl⟩
  · decide
  · simp [statusByte, csumBlock, Mode.bits, statusValues]
  · simp [statusByte, frameBlock, Mode.bits, statusValues]
  · cases c <;> decide

/-- Settles O37: the byte's fields for every code and mode, and its value in each row of R26. -/
theorem statusByteShowsCodeAndMode : Obligations.StatusByteShowsCodeAndMode :=
  ⟨fun b => statusFields b.errCode b.mode.bits, by decide, fun _ _ => statusByte_mem_statusValues, by decide⟩

/-! ### Fault codes (R160) -/

theorem ofBits_bits (f : FaultCode) : FaultCode.ofBits f.bits = some f := by
  cases f <;> rfl

theorem bits_of_ofBits {c : BitVec 4} {f : FaultCode} (h : FaultCode.ofBits c = some f) : f.bits = c := by
  unfold FaultCode.ofBits at h
  split_ifs at h with h1 h2 h3 h4
  · cases h; exact h1.symm
  · cases h; exact h2.symm
  · cases h; exact h3.symm
  · cases h; exact h4.symm

/-- Settles O17: the four codes and words by computation, and `ofBits` as the inverse of `bits`. -/
theorem faultCodesAndTheirWords : Obligations.FaultCodesAndTheirWords := by
  refine ⟨by decide, by decide, by decide, by decide, by decide, fun c f => ⟨bits_of_ofBits, ?_⟩⟩
  rintro rfl
  exact ofBits_bits f

/-! ### The fields of an output word (R64) -/

/-- A byte carried in a word's low half reaches no field above bit 7. -/
theorem extractLsb'_zext16_high (b : Byte) {i : Nat} (n : Nat) (hi : 8 ≤ i) : (zext16 b).extractLsb' i n = 0#n := by
  ext j hj
  simp only [zext16, BitVec.getElem_extractLsb', BitVec.getLsbD_setWidth, BitVec.getElem_zero]
  rw [BitVec.getLsbD_of_ge b (i + j) (by omega), Bool.and_false]

theorem outRsvField_or_zext16 (k : Word) (b : Byte) : outRsvField (k ||| zext16 b) = outRsvField k := by
  rw [outRsvField, outRsvField, BitVec.extractLsb'_or, extractLsb'_zext16_high b 3 (by decide), BitVec.or_zero]

theorem lastField_or_zext16 (k : Word) (b : Byte) : lastField (k ||| zext16 b) = lastField k := by
  rw [lastField, lastField, BitVec.extractLsb'_or, extractLsb'_zext16_high b 1 (by decide), BitVec.or_zero]

theorem outByteField_or_zext16 {k : Word} (hk : outByteField k = 0#8) (b : Byte) :
    outByteField (k ||| zext16 b) = b := by
  have hb : (zext16 b).extractLsb' 0 8 = b := by
    apply BitVec.eq_of_toNat_eq
    simp [zext16, Nat.mod_eq_of_lt, b.isLt]
  rw [outByteField] at hk ⊢
  rw [BitVec.extractLsb'_or, hk, hb, BitVec.zero_or]

/-- An output word is its high fields with the byte it carries. -/
theorem word_of_outFields {w : Word} {kind : BitVec 4} {last : BitVec 1} (hkind : kindField w = kind)
    (hrsv : outRsvField w = 0#3) (hlast : lastField w = last) :
    w = (kind ++ 0#3 ++ last ++ 0#8 : Word) ||| zext16 (outByteField w) := by
  rw [← hkind, ← hrsv, ← hlast]
  apply BitVec.eq_of_getLsbD_eq
  intro i hi
  rw [BitVec.getLsbD_or]
  change _ = (BitVec.getLsbD (w := 4 + 3 + 1 + 8) _ _ || _)
  rw [BitVec.getLsbD_append, BitVec.getLsbD_append, BitVec.getLsbD_append]
  simp only [kindField, outRsvField, lastField, outByteField, zext16, BitVec.getLsbD_extractLsb',
    BitVec.getLsbD_setWidth]
  interval_cases i <;> simp

/-! ### The consumer's reading of each kind (R65) -/

theorem readOutWord_resultWord (c : Byte) : readOutWord (resultWord c) = some (.result c) := by
  have hkind : kindField (resultWord c) = 1#4 := kindField_resultWord c
  have hrsv : outRsvField (resultWord c) = 0#3 := outRsvField_or_zext16 _ c
  have hlast : lastField (resultWord c) = 1#1 := lastField_or_zext16 _ c
  have hbyte : outByteField (resultWord c) = c := outByteField_or_zext16 (by decide) c
  simp [readOutWord, hkind, hrsv, hlast, hbyte]

theorem readOutWord_pktWord (b : Byte) : readOutWord (pktWord b) = some (.pkt false b) := by
  have hkind : kindField (pktWord b) = 2#4 := kindField_or_zext16 _ b
  have hrsv : outRsvField (pktWord b) = 0#3 := outRsvField_or_zext16 _ b
  have hlast : lastField (pktWord b) = 0#1 := lastField_or_zext16 _ b
  have hbyte : outByteField (pktWord b) = b := outByteField_or_zext16 (by decide) b
  simp [readOutWord, hkind, hrsv, hlast, hbyte]

theorem readOutWord_pktLastWord (c : Byte) : readOutWord (pktLastWord c) = some (.pkt true c) := by
  have hkind : kindField (pktLastWord c) = 2#4 := kindField_or_zext16 _ c
  have hrsv : outRsvField (pktLastWord c) = 0#3 := outRsvField_or_zext16 _ c
  have hlast : lastField (pktLastWord c) = 1#1 := lastField_or_zext16 _ c
  have hbyte : outByteField (pktLastWord c) = c := outByteField_or_zext16 (by decide) c
  simp [readOutWord, hkind, hrsv, hlast, hbyte]

theorem readOutWord_faultWord (code : FaultCode) : readOutWord (faultWord code) = some (.fault code) := by
  cases code <;> decide

theorem readOutWord_statWord {max : Nat} {b : Block} (h : blockWf max b = true) :
    readOutWord (statWord b) = some (.stat (statusByte b)) := by
  have hkind : kindField (statWord b) = 4#4 := kindField_statWord b
  have hrsv : outRsvField (statWord b) = 0#3 := outRsvField_or_zext16 _ _
  have hlast : lastField (statWord b) = 1#1 := lastField_or_zext16 _ _
  have hbyte : outByteField (statWord b) = statusByte b := outByteField_or_zext16 (by decide) _
  simp [readOutWord, hkind, hrsv, hlast, hbyte, statusByte_mem_statusValues h]

/-- A byte with a zero high half is its low half. -/
theorem zext16_eq_of_high_zero {b : Byte} (h : b.extractLsb' 4 4 = 0#4) :
    zext16 b = (b.extractLsb' 0 4).setWidth 16 := by
  have hhigh : b.toNat / 2 ^ 4 % 2 ^ 4 = 0 := by
    simpa [BitVec.extractLsb'_toNat, Nat.shiftRight_eq_div_pow] using congrArg BitVec.toNat h
  apply BitVec.eq_of_toNat_eq
  simp only [zext16, BitVec.toNat_setWidth, BitVec.extractLsb'_toNat, Nat.shiftRight_zero]
  omega

/-- A FAULT word read as a code is that code's word (R65, R160). -/
theorem eq_faultWord_of_outFields {w : Word} {code : FaultCode} (hkind : kindField w = 3#4)
    (hrsv : outRsvField w = 0#3) (hlast : lastField w = 1#1) (hhigh : (outByteField w).extractLsb' 4 4 = 0#4)
    (hcode : FaultCode.ofBits ((outByteField w).extractLsb' 0 4) = some code) : w = faultWord code := by
  have hw := word_of_outFields hkind hrsv hlast
  rw [zext16_eq_of_high_zero hhigh, ← bits_of_ofBits hcode] at hw
  exact hw

/-- A word that is read is one of R65's words: its fields, as far as the reading asks them, leave only the byte open. -/
theorem word_of_readOutWord {w : Word} {m : OutMsg} (h : readOutWord w = some m) :
    (∃ c, m = .result c ∧ w = resultWord c)
      ∨ (∃ b, m = .pkt false b ∧ w = pktWord b)
      ∨ (∃ c, m = .pkt true c ∧ w = pktLastWord c)
      ∨ (∃ code, m = .fault code ∧ w = faultWord code)
      ∨ (∃ b ∈ statusValues, m = .stat b ∧ w = 0x4100#16 ||| zext16 b) := by
  unfold readOutWord at h
  by_cases hrsv : outRsvField w = 0#3
  case neg => simp [hrsv] at h
  rw [if_neg (not_not.mpr hrsv)] at h
  split_ifs at h with hresult hlast hpkt hfault hcode hstat hvalue
  · cases h
    exact .inl ⟨_, rfl, word_of_outFields hresult hrsv hlast⟩
  · cases h
    rcases BitVec.eq_zero_or_eq_one (lastField w) with hlast | hlast
    · exact .inr (.inl ⟨_, by simp [hlast], word_of_outFields hpkt hrsv hlast⟩)
    · exact .inr (.inr (.inl ⟨_, by simp [hlast], word_of_outFields hpkt hrsv hlast⟩))
  · obtain ⟨hlast, hhigh⟩ := hcode
    obtain ⟨code, hof, rfl⟩ := Option.map_eq_some_iff.mp h
    exact .inr (.inr (.inr (.inl ⟨code, rfl, eq_faultWord_of_outFields hfault hrsv hlast hhigh hof⟩)))
  · cases h
    obtain ⟨hlast, hmem⟩ := hvalue
    exact .inr (.inr (.inr (.inr ⟨_, hmem, rfl, word_of_outFields hstat hrsv hlast⟩)))

/-- Settles O5: each kind's word is read as what it carries, and what is read has the fields of such a word. -/
theorem outputWordsReadBack : Obligations.OutputWordsReadBack := by
  refine ⟨readOutWord_resultWord, readOutWord_pktWord, readOutWord_pktLastWord, readOutWord_faultWord,
    fun _ _ => readOutWord_statWord, fun w m h => ?_⟩
  rcases word_of_readOutWord h with hres | hpkt | hlast | ⟨code, rfl, rfl⟩ | hstat
  · exact .inl hres
  · exact .inr (.inl hpkt)
  · exact .inr (.inr (.inl hlast))
  · exact .inr (.inr (.inr (.inl ⟨code, rfl, by cases code <;> decide, rfl⟩)))
  · exact .inr (.inr (.inr (.inr hstat)))

end Sys2Proof.Machine
end

section
/-! SUPPORT. What a step does for each thing the input side can hold, what every instruction leaves alone, and the
statements about the step and the ports settled from these (20_memory.md sections 3 and 4, 70_reset_and_hazards.md
sections 1 and 3). -/

namespace Sys2Proof.Machine

/-! ### One step, by what is presented -/

theorem step_of_nothing_presented {s : State} (hin : s.input = []) : step s = .next (drain s) := by
  simp [step, cycle, inputSide, hin]

theorem step_of_never_reset {s : State} {w : Word} {rest : List Event} (hr : s.resetDone = false)
    (hin : s.input = .word w :: rest) : step s = .refused .beforeFirstReset := by
  simp [step, cycle, inputSide, hin, hr]

theorem step_of_held_off {s : State} {w : Word} {rest : List Event} (hr : s.resetDone = true)
    (hin : s.input = .word w :: rest) (hp : (drain s).pending ≠ []) : step s = .next (drain s) := by
  simp [step, cycle, inputSide, hin, hr, hp]

theorem step_of_accepted {s : State} {w : Word} {rest : List Event} (hr : s.resetDone = true)
    (hin : s.input = .word w :: rest) (hp : (drain s).pending = []) :
    step s = acceptWord w (setInput rest (drain s)) := by
  simp [step, cycle, inputSide, hin, hr, hp]

/-! ### The consumer's turn -/

theorem drain_pending_of_nil {s : State} (hp : s.pending = []) : (drain s).pending = [] := by
  obtain ⟨n, ns, hdrain⟩ := drain_cases s
  rw [hdrain, takeOutput_pending, hp, List.drop_nil]

theorem drain_of_nothing_outstanding {s : State} (hp : s.pending = []) (hc : s.consumer = []) : drain s = s := by
  cases hrest : s.consumerRest with
  | takesNone => exact drain_of_stopped hc hrest
  | takesAll =>
    rw [drain_of_keeps_taking hc hrest, hp, List.append_nil]
    cases s
    simp_all

/-! ### What every instruction leaves alone -/

/-- From `s` to `t` only the block changed, and words and fault entries were added at the end. -/
structure PortsKept (s t : State) : Prop where
  cfg : t.cfg = s.cfg
  resetDone : t.resetDone = s.resetDone
  input : t.input = s.input
  consumer : t.consumer = s.consumer
  consumerRest : t.consumerRest = s.consumerRest
  taken : t.taken = s.taken
  accepted : t.accepted = s.accepted
  pending : s.pending <+: t.pending
  history : s.history <+: t.history

theorem portsKept_setBlock (b : Block) (s : State) : PortsKept s (setBlock b s) :=
  ⟨rfl, rfl, rfl, rfl, rfl, rfl, rfl, List.prefix_rfl, List.prefix_rfl⟩

theorem portsKept_emit (ws : List Word) (s : State) : PortsKept s (emit ws s) :=
  ⟨rfl, rfl, rfl, rfl, rfl, rfl, rfl, List.prefix_append _ _, List.prefix_rfl⟩

theorem portsKept_recordFault (c : FaultCode) (s : State) : PortsKept s (recordFault c s) :=
  ⟨rfl, rfl, rfl, rfl, rfl, rfl, rfl, List.prefix_rfl, List.prefix_append _ _⟩

theorem PortsKept.refl (s : State) : PortsKept s s :=
  portsKept_setBlock s.block s

theorem PortsKept.trans {s t u : State} (h : PortsKept s t) (h' : PortsKept t u) : PortsKept s u where
  cfg := h'.cfg.trans h.cfg
  resetDone := h'.resetDone.trans h.resetDone
  input := h'.input.trans h.input
  consumer := h'.consumer.trans h.consumer
  consumerRest := h'.consumerRest.trans h.consumerRest
  taken := h'.taken.trans h.taken
  accepted := h'.accepted.trans h.accepted
  pending := h.pending.trans h'.pending
  history := h.history.trans h'.history

theorem portsKept_setBlock_emit (b : Block) (ws : List Word) (s : State) : PortsKept s (setBlock b (emit ws s)) :=
  (portsKept_emit ws s).trans (portsKept_setBlock b _)

theorem portsKept_raiseFault (c : FaultCode) (s : State) : PortsKept s (raiseFault c s) :=
  (portsKept_setBlock_emit (faultBlock c) [faultWord c] s).trans (portsKept_recordFault c _)

theorem exec_portsKept {i : Instr} {s t : State} (h : exec i s = .next t) : PortsKept s t := by
  rcases exec_cases h with rfl | ⟨-, c, rfl⟩ | ⟨-, -, rfl⟩ | ⟨-, -, rfl⟩ | ⟨d, -, -, -, rfl⟩ | ⟨d, -, -, -, rfl⟩ |
    ⟨d, -, -, -, rfl⟩ | ⟨-, -, -, rfl⟩ | ⟨-, -, rfl⟩ | ⟨-, rfl⟩ | ⟨-, rfl⟩
  · exact .refl t
  · exact portsKept_raiseFault c s
  · exact portsKept_setBlock _ s
  · exact portsKept_setBlock _ s
  · exact portsKept_setBlock _ s
  · exact portsKept_setBlock _ s
  · exact portsKept_setBlock _ s
  · exact portsKept_setBlock_emit _ _ s
  · exact portsKept_setBlock_emit _ _ s
  · exact portsKept_setBlock _ s
  · exact portsKept_emit _ s

theorem takeIllegal_portsKept (s : State) : PortsKept s (takeIllegal s) := by
  rcases takeIllegal_cases s with ⟨-, h⟩ | ⟨-, h⟩ <;> rw [h]
  · exact .refl s
  · exact portsKept_raiseFault .illegal s

/-- Accepting a word leaves the ports alone, but for the word being counted. -/
theorem acceptWord_portsKept {w : Word} {s t : State} (h : acceptWord w s = .next t) :
    ∃ u, PortsKept s u ∧ t = countWord u := by
  rcases acceptWord_next h with ⟨i, u, -, hx, rfl⟩ | ⟨e, -, rfl⟩
  · exact ⟨u, exec_portsKept hx, rfl⟩
  · exact ⟨takeIllegal s, takeIllegal_portsKept s, rfl⟩

/-- A step accepts no word and leaves the output, or accepts one with nothing outstanding and leaves its words on the
port. -/
theorem step_output {s t : State} (h : step s = .next t) :
    output t = output s ∨
    (∃ w rest, s.input = .word w :: rest ∧ t.input = rest ∧ (drain s).pending = []
      ∧ output t = output s ++ t.pending ∧ t.accepted = s.accepted + 1) := by
  rcases step_next h with ⟨-, rfl⟩ | ⟨p, rest, -, rfl⟩ | ⟨w, rest, -, -, rfl⟩ | ⟨w, rest, hin, -, hp, hacc⟩
  · exact .inl (drain_output s)
  · exact .inl (by simp)
  · exact .inl (drain_output s)
  · obtain ⟨u, hkept, rfl⟩ := acceptWord_portsKept hacc
    have hinput : u.input = rest := hkept.input
    have haccepted : u.accepted = s.accepted := hkept.accepted.trans (drain_accepted s)
    have htaken : u.taken = output s := by
      rw [hkept.taken, ← drain_output s, output, hp, List.append_nil, setInput_taken]
    refine .inr ⟨w, rest, hin, hinput, hp, ?_, by rw [countWord_accepted, haccepted]⟩
    rw [output, countWord_taken, htaken]

/-! ### The statements -/

/-- Settles O6: with nothing outstanding the step accepts the word, and accepting a decoded word is `exec`, counted. -/
theorem stepRunsTheDecodedInstruction : Obligations.StepRunsTheDecodedInstruction := by
  intro s w rest i hr hin hp hdec
  have hstep : step s = counted (exec i (setInput rest (drain s))) := by
    rw [step_of_accepted hr hin hp, acceptWord_of_decode hdec]
  refine ⟨hstep, fun t hx => ?_⟩
  rw [hstep, hx]
  rfl

/-- Settles O7: the three cases of `drain`, and its lemma about the output. -/
theorem consumerTurnMovesOutput : Obligations.ConsumerTurnMovesOutput :=
  ⟨fun _ => drain_of_keeps_taking, fun _ => drain_of_stopped, fun _ _ _ => drain_of_cons, drain_output⟩

/-- Settles O9: every arm of `exec` answers. -/
theorem everyInstructionAnswersNext : Obligations.EveryInstructionAnswersNext :=
  exec_total

/-- Settles O10: a step that holds the word off is the consumer's turn alone. -/
theorem outstandingOutputHoldsTheWordOff : Obligations.OutstandingOutputHoldsTheWordOff := by
  intro s w rest hr hin hp
  exact ⟨drain s, step_of_held_off hr hin hp, rfl, drain_block s, drain_input s, drain_accepted s, drain_history s,
    drain_output s⟩

/-- Settles O11: a step with nothing presented is the consumer's turn alone. -/
theorem nothingPresentedChangesNothing : Obligations.NothingPresentedChangesNothing := by
  intro s hin
  exact ⟨step_of_nothing_presented hin, drain_block s, drain_cfg s, drain_resetDone s, drain_accepted s,
    drain_history s, drain_output s, drain_of_nothing_outstanding⟩

/-- Settles O13: the fields of `Block.idle`, which every reset state holds. -/
theorem resetValueOfEveryField : Obligations.ResetValueOfEveryField :=
  have hstatus : statusByte Block.idle = 0x00#8 := by decide
  have herr : errO Block.idle = false := by decide
  ⟨fun _ => ⟨rfl, rfl, rfl, rfl, rfl, rfl, hstatus, herr⟩, rfl, fun _ _ => ⟨rfl, rfl⟩⟩

theorem start_of_never_reset {s : State} (hr : s.resetDone = false) : start s = .refused .unreachableStart := by
  simp [start, startable, hr]

/-- Settles O14: the step and the start both ask for the first reset, and rst is taken without it. -/
theorem neverResetBlockIsRefused : Obligations.NeverResetBlockIsRefused := by
  refine ⟨fun _ _ _ => step_of_never_reset, fun _ => start_of_never_reset, fun c b k => ?_, fun c b p => ?_⟩
  · rw [runFrom, start_of_never_reset (s := powerUp c b) rfl]
  · exact ⟨_, step_of_rst rfl, rfl, rfl⟩

theorem withFetchWord_encode (s : State) (i : Instr) :
    s.withFetchWord 16 (encode i).toNat = presentNext (encode i) s := by
  have hlt : (encode i).toNat < 2 ^ 16 := (encode i).isLt
  rw [State.withFetchWord, tableWord, Nat.mod_eq_of_lt hlt, BitVec.ofNat_toNat, BitVec.setWidth_eq]

/-- Settles O15: placing a word takes the outstanding output, so that the next step accepts the word. -/
theorem placedWordIsRunNext : Obligations.PlacedWordIsRunNext := by
  intro s i hr
  have hp : (drain (presentNext (encode i) s)).pending = [] := drain_pending_of_nil (by simp)
  refine ⟨setInput s.input (drain (presentNext (encode i) s)), ?_, by simp, by simp, rfl, by simp, by simp, hp, ?_⟩
  · rw [withFetchWord_encode, step_of_accepted (s := presentNext (encode i) s) hr rfl hp, acceptWord_encode]
  · rw [output_setInput, drain_output]
    simp [output]

/-- Settles O38: `exec_portsKept`, field by field. -/
theorem instructionsLeaveThePortsAlone : Obligations.InstructionsLeaveThePortsAlone := by
  intro i s t h
  have hkept := exec_portsKept h
  obtain ⟨new, hnew⟩ := hkept.pending
  obtain ⟨more, hmore⟩ := hkept.history
  exact ⟨hkept.cfg, hkept.resetDone, hkept.input, hkept.consumer, hkept.consumerRest, hkept.taken, hkept.accepted,
    ⟨new, hnew.symm⟩, ⟨more, hmore.symm⟩⟩

/-- Settles O42: a step adds nothing, or what it adds is what the word it accepts left on the port. -/
theorem outputOnlyGrowsByAcceptedWords : Obligations.OutputOnlyGrowsByAcceptedWords := by
  intro s t h
  rcases step_output h with hout | ⟨w, rest, hin, hrest, hp, hout, haccepted⟩
  · exact ⟨[], by rw [hout, List.append_nil], fun hne => absurd rfl hne⟩
  · exact ⟨t.pending, hout, fun _ => ⟨w, rest, hin, hrest, hp, rfl, haccepted⟩⟩

end Sys2Proof.Machine
end

section
/-! SUPPORT. What a step from ERR can end in, when a step records a fault, and the statements of 60_exceptions.md
sections 2 and 5 and 42_control.md section 1 settled from these. -/

namespace Sys2Proof.Machine

/-- A step with ABORT presented holds it off or ends in the reset block (R140). -/
theorem step_block_of_abort {s t : State} {rest : List Event} (hin : s.input = .word 0x5000#16 :: rest)
    (h : step s = .next t) : t.block = s.block ∨ t.block = Block.idle := by
  rcases step_next h with ⟨-, rfl⟩ | ⟨p, rest', hin', -⟩ | ⟨w, rest', -, -, rfl⟩ | ⟨w, rest', hin', -, -, hacc⟩
  · exact .inl (drain_block s)
  · cases hin.symm.trans hin'
  · exact .inl (drain_block s)
  · cases hin.symm.trans hin'
    rw [acceptWord_of_decode (i := .abort) (by decide)] at hacc
    cases hacc
    exact .inr rfl

/-- A step from ERR keeps the block, or it ends in the reset block and was on ABORT or reset. -/
theorem step_block_of_err_or_idle {s t : State} (hm : s.block.mode = .err) (h : step s = .next t) :
    t.block = s.block ∨ (t.block = Block.idle ∧
      ((∃ rest, s.input = .word 0x5000#16 :: rest) ∨ (∃ p rest, s.input = .rst p :: rest))) := by
  rcases step_block_of_err hm h with hblock | ⟨rest, hin⟩ | ⟨p, rest, hin⟩
  · exact .inl hblock
  · exact (step_block_of_abort hin h).imp id fun hidle => ⟨hidle, .inl ⟨rest, hin⟩⟩
  · cases (step_of_rst hin).symm.trans h
    exact .inr ⟨rfl, .inr ⟨p, rest, hin⟩⟩

theorem wordFault_of_err {s : State} (hm : s.block.mode = .err) (w : Word) : wordFault w s = none := by
  rw [wordFault, if_pos hm]

/-- No fault is recorded in ERR (R170). -/
theorem step_history_of_err {s t : State} (hm : s.block.mode = .err) (h : step s = .next t) :
    t.history = s.history := by
  rcases step_next h with ⟨-, rfl⟩ | ⟨p, rest, -, rfl⟩ | ⟨w, rest, -, -, rfl⟩ | ⟨w, rest, -, -, -, hacc⟩
  · exact drain_history s
  · exact drain_history s
  · exact drain_history s
  · have hf : wordFault w (setInput rest (drain s)) = none := wordFault_of_err (by simpa using hm) w
    obtain ⟨hhist, -⟩ := acceptWord_of_wordFault_none hf hacc
    exact hhist.trans (drain_history s)

/-- A step outside ERR records one fault and enters ERR, or a step records nothing and does not enter ERR. -/
theorem step_records_or_takesNoFault {s t : State} (h : step s = .next t) :
    (s.block.mode ≠ .err ∧ ∃ c, t.block = faultBlock c
      ∧ t.history = s.history ++ [{ code := c, index := s.accepted }] ∧ t.accepted = s.accepted + 1)
      ∨ TakesNoFault s t := by
  by_cases hm : s.block.mode = .err
  · exact .inr ⟨step_history_of_err hm h, fun _ => hm⟩
  · rcases step_raises_or_takesNoFault h with ⟨w, rest, c, -, rfl⟩ | hno
    · exact .inl ⟨hm, c, rfl, by simp, by simp⟩
    · exact .inr hno

/-- Settles O22: a word whose checks find a fault is that fault's entry, and one whose checks find none records nothing. -/
theorem faultingWordHasOnlyTheFaultEntry : Obligations.FaultingWordHasOnlyTheFaultEntry := by
  intro w s t h hne
  cases hf : wordFault w s with
  | some c =>
    cases (acceptWord_of_wordFault_some hf).symm.trans h
    exact ⟨c, rfl, by simp, kindField_faultWord c⟩
  | none =>
    obtain ⟨hhist, -⟩ := acceptWord_of_wordFault_none hf h
    exact absurd hhist hne

/-- Settles O23: nothing is recorded in ERR, and a step that changes the block there ends in IDLE. -/
theorem faultsNeverNest : Obligations.FaultsNeverNest := by
  refine fun s t hm h => ⟨step_history_of_err hm h, fun ht => ?_⟩
  refine (step_block_of_err_or_idle hm h).resolve_right fun ⟨hidle, _⟩ => ?_
  rw [hidle] at ht
  cases ht

/-- Settles O24: the two kinds of step, one with an entry and one without; and rst, which is of the second kind. -/
theorem faultHistoryRecordsEveryEntry : Obligations.FaultHistoryRecordsEveryEntry := by
  intro s t h
  refine ⟨?_, ?_, fun p rest hin => ?_⟩
  · rcases step_records_or_takesNoFault h with ⟨-, c, -, hhist, -⟩ | ⟨hhist, -⟩
    · exact .inr ⟨c, hhist⟩
    · exact .inl hhist
  · rcases step_records_or_takesNoFault h with ⟨hm, c, hblock, hhist, -⟩ | ⟨hhist, hmode⟩
    · exact iff_of_true (by simp [hhist]) ⟨hm, by rw [hblock]; rfl⟩
    · exact iff_of_false (not_not.mpr hhist) fun ⟨hs, ht⟩ => hs (hmode ht)
  · cases (step_of_rst hin).symm.trans h
    exact ⟨drain_history s, drain_accepted s, rfl⟩

/-- Settles O25: a step from ERR that does not keep the block is `step_block_of_err_or_idle`'s other case. -/
theorem onlyAbortOrResetLeavesErr : Obligations.OnlyAbortOrResetLeavesErr :=
  fun _ _ hm h ht => (step_block_of_err_or_idle hm h).resolve_left fun hblock => ht (hblock ▸ hm)

end Sys2Proof.Machine
end

section
/-! SUPPORT. The invariant of the machine: R26's table, R65's words and the order of the fault history, each kept by an
accepted word, and the two statements about well-formed states settled from these (10_state.md sections 2 and 3). -/

namespace Sys2Proof.Machine

/-! ### R26's table -/

theorem accSum_append_singleton (p : List Byte) (d : Byte) : accSum (p ++ [d]) = accSum p + d := by
  simp [accSum, addByte]

/-- One more payload byte leads from one block of the FRAME row to the next (R124). -/
theorem frameBlock_with_byte (p : List Byte) (d : Byte) :
    { frameBlock p with buf := p ++ [d], acc := accSum p + d } = frameBlock (p ++ [d]) := by
  simp only [frameBlock, accSum_append_singleton]

/-- Every arm of every instruction ends in a row of R26. -/
theorem exec_keeps_blockWf {i : Instr} {s t : State} (hwf : blockWf s.cfg.maxPayload s.block = true)
    (h : exec i s = .next t) : blockWf t.cfg.maxPayload t.block = true := by
  rcases exec_cases h with rfl | ⟨-, c, rfl⟩ | ⟨-, hm, rfl⟩ | ⟨-, hm, rfl⟩ | ⟨d, -, hm, hk, rfl⟩ | ⟨d, -, hm, hk, rfl⟩ |
    ⟨d, -, hm, hroom, rfl⟩ | ⟨-, hm, -, rfl⟩ | ⟨-, hm, rfl⟩ | ⟨-, rfl⟩ | ⟨-, rfl⟩
  · exact hwf
  · exact blockWf_faultBlock _ c
  · have hb : (openCsum s).block = csumBlock 2#2 0#8 := by
      rw [openCsum, eq_idle_of_blockWf hwf hm]
      rfl
    rw [hb]
    exact blockWf_csumBlock (.inr ⟨by decide, rfl⟩)
  · have hb : (openFrame s).block = frameBlock [] := by
      rw [openFrame, eq_idle_of_blockWf hwf hm]
      rfl
    rw [hb]
    exact blockWf_frameBlock (Nat.zero_le _)
  · obtain ⟨hb, hrow⟩ := eq_csumBlock_of_blockWf hwf hm
    obtain ⟨hle, hacc⟩ := hrow.resolve_left hk
    rw [setBlock_block, hb]
    refine blockWf_csumBlock (a := s.block.acc) (.inr ⟨?_, hacc⟩)
    change (s.block.skip - 1#2).toNat ≤ 2
    bv_omega
  · obtain ⟨hb, -⟩ := eq_csumBlock_of_blockWf hwf hm
    rw [setBlock_block, hb]
    exact blockWf_csumBlock (a := s.block.acc + d) (.inl hk)
  · obtain ⟨hb, hlen⟩ := eq_frameBlock_of_blockWf hwf hm
    have hnext : { s.block with buf := s.block.buf ++ [d], acc := s.block.acc + d }
        = frameBlock (s.block.buf ++ [d]) := by
      rw [hb]
      exact frameBlock_with_byte s.block.buf d
    rw [setBlock_block, hnext]
    exact blockWf_frameBlock (by simp only [List.length_append, List.length_singleton, setBlock_cfg]; omega)
  · obtain ⟨hb, -⟩ := eq_csumBlock_of_blockWf hwf hm
    rw [setBlock_block, hb]
    exact blockWf_idle _
  · obtain ⟨hb, -⟩ := eq_frameBlock_of_blockWf hwf hm
    rw [frameEnd, setBlock_block, hb]
    exact blockWf_idle _
  · exact blockWf_idle _
  · exact hwf

theorem takeIllegal_keeps_blockWf {s : State} (hwf : blockWf s.cfg.maxPayload s.block = true) :
    blockWf (takeIllegal s).cfg.maxPayload (takeIllegal s).block = true := by
  rcases takeIllegal_cases s with ⟨-, h⟩ | ⟨-, h⟩ <;> rw [h]
  · exact hwf
  · exact blockWf_faultBlock _ .illegal

theorem acceptWord_keeps_blockWf {w : Word} {s t : State} (hwf : blockWf s.cfg.maxPayload s.block = true)
    (h : acceptWord w s = .next t) : blockWf t.cfg.maxPayload t.block = true := by
  rcases acceptWord_next h with ⟨i, u, -, hx, rfl⟩ | ⟨e, -, rfl⟩
  · exact exec_keeps_blockWf (t := u) hwf hx
  · exact takeIllegal_keeps_blockWf hwf

/-! ### R65's words -/

@[simp] theorem emittable_resultWord (c : Byte) : emittable (resultWord c) = true := by
  simp [emittable, readOutWord_resultWord]

@[simp] theorem emittable_faultWord (c : FaultCode) : emittable (faultWord c) = true := by
  simp [emittable, readOutWord_faultWord]

theorem emittable_statWord {max : Nat} {b : Block} (h : blockWf max b = true) : emittable (statWord b) = true := by
  simp [emittable, readOutWord_statWord h]

@[simp] theorem all_emittable_packetWords (buf : List Byte) (acc : Byte) :
    (packetWords buf acc).all emittable = true := by
  have hpkt : ∀ b, emittable (pktWord b) = true := fun b => by simp [emittable, readOutWord_pktWord]
  have hlast : ∀ c, emittable (pktLastWord c) = true := fun c => by simp [emittable, readOutWord_pktLastWord]
  simp [packetWords, hpkt, hlast]

/-- Every word that an instruction emits from a block of R26's table can be read. -/
theorem exec_keeps_output_emittable {i : Instr} {s t : State} (hwf : blockWf s.cfg.maxPayload s.block = true)
    (hout : (output s).all emittable = true) (h : exec i s = .next t) : (output t).all emittable = true := by
  rcases exec_cases h with rfl | ⟨-, c, rfl⟩ | ⟨-, -, rfl⟩ | ⟨-, -, rfl⟩ | ⟨d, -, -, -, rfl⟩ | ⟨d, -, -, -, rfl⟩ |
    ⟨d, -, -, -, rfl⟩ | ⟨-, -, -, rfl⟩ | ⟨-, -, rfl⟩ | ⟨-, rfl⟩ | ⟨-, rfl⟩
  · exact hout
  · rw [output_raiseFault, List.all_append, hout]
    simp
  · exact hout
  · exact hout
  · exact hout
  · exact hout
  · exact hout
  · rw [output_setBlock, output_emit, List.all_append, hout]
    simp
  · rw [output_frameEnd, List.all_append, hout]
    simp
  · exact hout
  · rw [output_emit, List.all_append, hout]
    simp [emittable_statWord hwf]

theorem acceptWord_keeps_output_emittable {w : Word} {s t : State} (hwf : blockWf s.cfg.maxPayload s.block = true)
    (hout : (output s).all emittable = true) (h : acceptWord w s = .next t) : (output t).all emittable = true := by
  rcases acceptWord_next h with ⟨i, u, -, hx, rfl⟩ | ⟨e, -, rfl⟩
  · exact exec_keeps_output_emittable (t := u) hwf hout hx
  · rw [output_countWord]
    rcases takeIllegal_cases s with ⟨-, hs⟩ | ⟨-, hs⟩ <;> rw [hs]
    · exact hout
    · rw [output_raiseFault, List.all_append, hout]
      simp

/-! ### The fault history (R181) -/

theorem historyWf_iff (s : State) : historyWf s = true ↔
    (s.history.map FaultRecord.index).Pairwise (· < ·)
      ∧ (∀ r ∈ s.history, r.index < s.accepted)
      ∧ (s.block.mode = .err → (s.history.getLast?).map (fun r => r.code.bits) = some s.block.errCode) := by
  simp only [historyWf, Bool.and_eq_true, Bool.or_eq_true, Bool.not_eq_true', decide_eq_true_eq, decide_eq_false_iff_not,
    List.all_eq_true, and_assoc, ← imp_iff_not_or]

/-- A new entry carries an index above all before it and the code that ERR_CODE now shows. -/
theorem historyWf_countWord_raiseFault {s : State} (hwf : historyWf s = true) (c : FaultCode) :
    historyWf (countWord (raiseFault c s)) = true := by
  obtain ⟨hrise, hbelow, -⟩ := (historyWf_iff s).mp hwf
  refine (historyWf_iff _).mpr ⟨?_, ?_, fun _ => ?_⟩
  · simp only [countWord_history, raiseFault_history, List.map_append, List.map_cons, List.map_nil]
    refine List.pairwise_append.mpr ⟨hrise, List.pairwise_singleton _ _, fun a ha b hb => ?_⟩
    obtain ⟨r, hr, rfl⟩ := List.mem_map.mp ha
    rw [List.mem_singleton.mp hb]
    exact hbelow r hr
  · intro r hr
    simp only [countWord_history, raiseFault_history, List.mem_append, List.mem_singleton] at hr
    rw [countWord_accepted, raiseFault_accepted]
    rcases hr with hr | rfl
    · exact Nat.lt_succ_of_lt (hbelow r hr)
    · exact Nat.lt_succ_self _
  · simp [faultBlock]

/-- A history stays in order while words are counted, as long as ERR is not entered and its code not changed. -/
theorem historyWf_of_history_eq {s t : State} (hwf : historyWf s = true) (hhist : t.history = s.history)
    (haccepted : s.accepted ≤ t.accepted) (herr : t.block.mode = .err → t.block = s.block) :
    historyWf t = true := by
  obtain ⟨hrise, hbelow, hlast⟩ := (historyWf_iff s).mp hwf
  refine (historyWf_iff t).mpr ⟨hhist ▸ hrise, fun r hr => ?_, fun hm => ?_⟩
  · exact (hbelow r (hhist ▸ hr)).trans_le haccepted
  · have hblock := herr hm
    rw [hhist, hblock]
    exact hlast (hblock ▸ hm)

/-- A word that leaves the block in ERR without a fault leaves the block. -/
theorem acceptWord_block_of_err_after {w : Word} {s t : State} (hno : TakesNoFault s t) (h : acceptWord w s = .next t)
    (ht : t.block.mode = .err) : t.block = s.block := by
  obtain ⟨-, hmode⟩ := hno
  by_cases hw : w = 0x5000#16
  · subst hw
    rw [acceptWord_of_decode (i := .abort) (by decide)] at h
    cases h
    cases ht
  · exact acceptWord_block_of_err (hmode ht) hw h

theorem acceptWord_keeps_historyWf {w : Word} {s t : State} (hwf : historyWf s = true) (h : acceptWord w s = .next t) :
    historyWf t = true := by
  cases hf : wordFault w s with
  | some c =>
    cases (acceptWord_of_wordFault_some hf).symm.trans h
    exact historyWf_countWord_raiseFault hwf c
  | none =>
    have hno := acceptWord_of_wordFault_none hf h
    have ⟨hhist, _⟩ := hno
    obtain ⟨u, hkept, rfl⟩ := acceptWord_portsKept h
    refine historyWf_of_history_eq hwf hhist ?_ (acceptWord_block_of_err_after hno h)
    rw [countWord_accepted, hkept.accepted]
    exact Nat.le_succ _

/-! ### The whole state -/

theorem State.wf_iff (s : State) : s.wf = true ↔
    s.cfg.wf = true ∧ s.resetDone = true ∧ blockWf s.cfg.maxPayload s.block = true
      ∧ (output s).all emittable = true ∧ historyWf s = true := by
  simp only [State.wf, Bool.and_eq_true, and_assoc]

theorem acceptWord_keeps_wf {w : Word} {s t : State} (hwf : s.wf = true) (h : acceptWord w s = .next t) :
    t.wf = true := by
  obtain ⟨hcfg, hreset, hblock, hout, hhist⟩ := (State.wf_iff s).mp hwf
  refine (State.wf_iff t).mpr ⟨?_, ?_, acceptWord_keeps_blockWf hblock h,
    acceptWord_keeps_output_emittable hblock hout h, acceptWord_keeps_historyWf hhist h⟩
  · obtain ⟨u, hkept, rfl⟩ := acceptWord_portsKept h
    rw [countWord_cfg, hkept.cfg]
    exact hcfg
  · obtain ⟨u, hkept, rfl⟩ := acceptWord_portsKept h
    rw [countWord_resetDone, hkept.resetDone]
    exact hreset

theorem setInput_keeps_wf {s : State} (hwf : s.wf = true) (es : List Event) : (setInput es s).wf = true :=
  hwf

theorem drain_keeps_wf {s : State} (hwf : s.wf = true) : (drain s).wf = true := by
  obtain ⟨hcfg, hreset, hblock, hout, hhist⟩ := (State.wf_iff s).mp hwf
  refine (State.wf_iff _).mpr ⟨by simpa using hcfg, by simpa using hreset, by simpa using hblock, by simpa using hout, ?_⟩
  exact historyWf_of_history_eq hhist (drain_history s) (drain_accepted s).ge fun _ => drain_block s

theorem resetBlock_keeps_wf {s : State} (hwf : s.wf = true) : (resetBlock s).wf = true := by
  obtain ⟨hcfg, -, -, hout, hhist⟩ := (State.wf_iff s).mp hwf
  refine (State.wf_iff _).mpr ⟨hcfg, rfl, blockWf_idle _, hout, ?_⟩
  exact historyWf_of_history_eq hhist rfl le_rfl fun hm => by cases hm

/-- Settles O39: the consumer's turn, the input, reset and an accepted word each keep the state well formed. -/
theorem stepKeepsTheStateWellFormed : Obligations.StepKeepsTheStateWellFormed := by
  intro s t hwf h
  have hdrained := drain_keeps_wf hwf
  rcases step_next h with ⟨-, rfl⟩ | ⟨p, rest, -, rfl⟩ | ⟨w, rest, -, -, rfl⟩ | ⟨w, rest, -, -, -, hacc⟩
  · exact hdrained
  · exact resetBlock_keeps_wf (setInput_keeps_wf hdrained rest)
  · exact hdrained
  · exact acceptWord_keeps_wf (setInput_keeps_wf hdrained rest) hacc

theorem resetWith_wf {c : Config} (hc : c.wf = true) : (State.resetWith c).wf = true :=
  (State.wf_iff _).mpr ⟨hc, rfl, blockWf_idle _, rfl, rfl⟩

/-- Settles O40: the reset state holds `Block.idle`, no output and no history. -/
theorem resetStateIsWellFormed : Obligations.ResetStateIsWellFormed :=
  ⟨fun _ => resetWith_wf, resetWith_wf (by decide)⟩

end Sys2Proof.Machine
end

section
/-! SUPPORT. What an accepted word does depends on the block and MAX_PAYLOAD alone: every operation commutes with putting
a past (output, faults, counts and ports) before the state it acts on (20_memory.md section 4, R54). -/

namespace Sys2Proof.Machine

/-! ### A state put behind a past -/

/-- What `f` makes of the next state of an outcome. -/
def onNext (f : State → State) : Host.Outcome State Fault Refusal → Host.Outcome State Fault Refusal
  | .next s => .next (f s)
  | .fault r => .fault r
  | .refused r => .refused r

theorem counted_onNext {f : State → State} (hf : ∀ s, countWord (f s) = f (countWord s))
    (o : Host.Outcome State Fault Refusal) : counted (onNext f o) = onNext f (counted o) := by
  cases o with
  | next s => exact congrArg Host.Outcome.next (hf s)
  | fault r => rfl
  | refused r => rfl

/-- A fault entry after `n` earlier words. -/
def FaultRecord.after (n : Nat) (r : FaultRecord) : FaultRecord := { r with index := n + r.index }

/-- The state `p` with the past and the ports of `s`: its block and parameter, and its output, faults and count behind
those of `s`. -/
def graft (s p : State) : State :=
  { s with
    cfg := p.cfg
    block := p.block
    pending := s.pending ++ p.pending
    history := s.history ++ p.history.map (FaultRecord.after s.accepted)
    accepted := s.accepted + p.accepted }

@[simp] theorem graft_block (s p : State) : (graft s p).block = p.block := rfl
@[simp] theorem graft_cfg (s p : State) : (graft s p).cfg = p.cfg := rfl

theorem output_graft (s p : State) : output (graft s p) = output s ++ p.pending := by
  simp [output, graft]

theorem history_code_graft (s p : State) :
    (graft s p).history.map FaultRecord.code = s.history.map FaultRecord.code ++ p.history.map FaultRecord.code := by
  simp [graft, FaultRecord.after]

/-- A block with nothing before it. -/
def freshAt (c : Config) (b : Block) : State := { State.resetWith c with block := b }

/-- Every state is its own block behind its own past. -/
theorem graft_freshAt (s : State) : graft s (freshAt s.cfg s.block) = s := by
  simp [graft, freshAt]

/-! ### Every operation acts behind the past -/

theorem setBlock_graft (b : Block) (s p : State) : setBlock b (graft s p) = graft s (setBlock b p) := rfl

theorem countWord_graft (s p : State) : countWord (graft s p) = graft s (countWord p) := rfl

theorem emit_graft (ws : List Word) (s p : State) : emit ws (graft s p) = graft s (emit ws p) := by
  simp [emit, graft]

theorem recordFault_graft (c : FaultCode) (s p : State) : recordFault c (graft s p) = graft s (recordFault c p) := by
  simp [recordFault, graft, FaultRecord.after]

theorem raiseFault_graft (c : FaultCode) (s p : State) : raiseFault c (graft s p) = graft s (raiseFault c p) := by
  rw [raiseFault, emit_graft, setBlock_graft, recordFault_graft]
  rfl

theorem csumData_graft (d : Byte) (s p : State) : csumData d (graft s p) = graft s (csumData d p) := by
  by_cases hk : p.block.skip = 0#2
  · rw [csumData_of_skip_eq_zero (s := graft s p) hk, csumData_of_skip_eq_zero hk]
    rfl
  · rw [csumData_of_skip_ne_zero (s := graft s p) hk, csumData_of_skip_ne_zero hk]
    rfl

theorem csumEnd_graft (s p : State) : csumEnd (graft s p) = graft s (csumEnd p) := by
  simp only [csumEnd, graft_block, raiseFault_graft, emit_graft, setBlock_graft, apply_ite (graft s)]

theorem frameData_graft (d : Byte) (s p : State) : frameData d (graft s p) = graft s (frameData d p) := by
  simp only [frameData, graft_block, graft_cfg, raiseFault_graft, setBlock_graft, apply_ite (graft s)]

theorem frameEnd_graft (s p : State) : frameEnd (graft s p) = graft s (frameEnd p) := by
  simp only [frameEnd, graft_block, emit_graft, setBlock_graft]

theorem takeIllegal_graft (s p : State) : takeIllegal (graft s p) = graft s (takeIllegal p) := by
  simp only [takeIllegal_eq_ite, graft_block, raiseFault_graft, apply_ite (graft s)]

/-- An instruction reads nothing of the past: one case for each mode of each arm. -/
theorem exec_graft (i : Instr) (s p : State) : exec i (graft s p) = onNext (graft s) (exec i p) := by
  cases i with
  | csumBegin =>
    simp only [exec, execCsumBegin, graft_block]
    cases p.block.mode <;> simp [onNext, openCsum, setBlock_graft, raiseFault_graft]
  | frameBegin =>
    simp only [exec, execFrameBegin, graft_block]
    cases p.block.mode <;> simp [onNext, openFrame, setBlock_graft, raiseFault_graft]
  | data d =>
    simp only [exec, execData, graft_block]
    cases p.block.mode <;> simp [onNext, csumData_graft, frameData_graft, raiseFault_graft]
  | endOp =>
    simp only [exec, execEnd, graft_block]
    cases p.block.mode <;> simp [onNext, csumEnd_graft, frameEnd_graft, raiseFault_graft]
  | abort => rfl
  | status => exact congrArg Host.Outcome.next (emit_graft _ s p)

theorem acceptWord_graft (w : Word) (s p : State) : acceptWord w (graft s p) = onNext (graft s) (acceptWord w p) := by
  cases hdec : decode w with
  | ok i =>
    rw [acceptWord_of_decode hdec, acceptWord_of_decode hdec, exec_graft, counted_onNext (countWord_graft s)]
  | error e =>
    simp only [acceptWord, hdec, takeIllegal_graft]
    rfl

theorem acceptAll_graft (ws : List Word) (s p : State) :
    acceptAll ws (graft s p) = onNext (graft s) (acceptAll ws p) := by
  induction ws generalizing p with
  | nil => rfl
  | cons w ws ih =>
    obtain ⟨q, hq⟩ := acceptWord_total w p
    have hgraft : acceptWord w (graft s p) = .next (graft s q) := by
      rw [acceptWord_graft, hq]
      rfl
    rw [acceptAll_cons hq, acceptAll_cons hgraft, ih]

/-- What words do to a state is what they do to its block alone, behind the state's past. -/
theorem acceptAll_eq_graft (ws : List Word) (s : State) :
    acceptAll ws s = onNext (graft s) (acceptAll ws (freshAt s.cfg s.block)) := by
  rw [← acceptAll_graft, graft_freshAt]

theorem acceptAll_total (ws : List Word) (s : State) : ∃ t, acceptAll ws s = .next t := by
  induction ws generalizing s with
  | nil => exact ⟨s, rfl⟩
  | cons w ws ih =>
    obtain ⟨u, hu⟩ := acceptWord_total w s
    obtain ⟨t, ht⟩ := ih u
    exact ⟨t, (acceptAll_cons hu ws).trans ht⟩

theorem exists_graft_of_acceptAll (ws : List Word) (c : Config) (b : Block) :
    ∃ p, ∀ s : State, s.cfg = c → s.block = b → acceptAll ws s = .next (graft s p) := by
  obtain ⟨p, hp⟩ := acceptAll_total ws (freshAt c b)
  refine ⟨p, fun s hc hb => ?_⟩
  rw [acceptAll_eq_graft, hc, hb, hp]
  rfl

/-! ### What a list of accepted words leaves alone -/

theorem acceptAll_append {ws : List Word} {s t : State} (h : acceptAll ws s = .next t) (ws' : List Word) :
    acceptAll (ws ++ ws') s = acceptAll ws' t := by
  induction ws generalizing s with
  | nil =>
    cases h
    rfl
  | cons w ws ih =>
    obtain ⟨u, hu⟩ := acceptWord_total w s
    rw [acceptAll_cons hu] at h
    rw [List.cons_append, acceptAll_cons hu, ih h]

theorem acceptAll_cfg {ws : List Word} {s t : State} (h : acceptAll ws s = .next t) : t.cfg = s.cfg := by
  induction ws generalizing s with
  | nil =>
    cases h
    rfl
  | cons w ws ih =>
    obtain ⟨u, hu⟩ := acceptWord_total w s
    obtain ⟨v, hkept, rfl⟩ := acceptWord_portsKept hu
    rw [acceptAll_cons hu] at h
    exact (ih h).trans hkept.cfg

theorem acceptAll_accepted {ws : List Word} {s t : State} (h : acceptAll ws s = .next t) :
    t.accepted = s.accepted + ws.length := by
  induction ws generalizing s with
  | nil =>
    cases h
    rfl
  | cons w ws ih =>
    obtain ⟨u, hu⟩ := acceptWord_total w s
    obtain ⟨v, hkept, rfl⟩ := acceptWord_portsKept hu
    rw [acceptAll_cons hu] at h
    rw [ih h, countWord_accepted, hkept.accepted, List.length_cons]
    omega

theorem acceptAll_output {ws : List Word} {s t : State} (h : acceptAll ws s = .next t) :
    ∃ new, output t = output s ++ new := by
  obtain ⟨p, hp⟩ := exists_graft_of_acceptAll ws s.cfg s.block
  cases (hp s rfl rfl).symm.trans h
  exact ⟨p.pending, output_graft s p⟩

end Sys2Proof.Machine
end

section
/-! SUPPORT. Runs of the machine against plain acceptance: what the presented words lead to once all output is taken,
whatever the consumer did on the way, and the statements about runs settled from that (20_memory.md section 4,
70_reset_and_hazards.md sections 3 and 4). -/

namespace Sys2Proof.Machine

/-! ### Taking steps one after another -/

theorem steps_succ {s t : State} (h : step s = .next t) (k : Nat) : steps (k + 1) s = steps k t := by
  rw [steps, h]

theorem steps_add {m : Nat} {s t : State} (h : steps m s = .next t) (k : Nat) : steps (m + k) s = steps k t := by
  induction m generalizing s with
  | zero =>
    cases h
    rw [Nat.zero_add]
  | succ m ih =>
    cases hs : step s with
    | next u =>
      rw [steps_succ hs] at h
      rw [Nat.succ_add, steps_succ hs, ih h]
    | fault r =>
      rw [steps, hs] at h
      cases h
    | refused r =>
      rw [steps, hs] at h
      cases h

theorem steps_of_step_self {s : State} (h : step s = .next s) (k : Nat) : steps k s = .next s := by
  induction k with
  | zero => rfl
  | succ k ih => rw [steps_succ h, ih]

/-! ### A state once everything is taken -/

/-- The state with nothing presented, every output word taken, and nothing left of the consumer's list. -/
def settle (s : State) : State :=
  { s with input := [], consumer := [], pending := [], taken := output s }

theorem settle_settle (s : State) : settle (settle s) = settle s := by
  simp [settle, output]

theorem settle_setInput (es : List Event) (s : State) : settle (setInput es s) = settle s := rfl

theorem settle_drain (s : State) : settle (drain s) = settle s := by
  obtain ⟨n, ns, hdrain⟩ := drain_cases s
  have hout := drain_output s
  rw [hdrain] at hout ⊢
  simp only [settle, hout]
  rfl

theorem settle_graft_settle (s p : State) : settle (graft (settle s) p) = settle (graft s p) := by
  simp [settle, graft, output]

theorem block_of_settle_eq {s t : State} (h : settle s = settle t) : s.block = t.block :=
  congrArg (fun r => r.block) h

theorem cfg_of_settle_eq {s t : State} (h : settle s = settle t) : s.cfg = t.cfg :=
  congrArg (fun r => r.cfg) h

theorem output_of_settle_eq {s t : State} (h : settle s = settle t) : output s = output t :=
  congrArg (fun r => r.taken) h

theorem history_of_settle_eq {s t : State} (h : settle s = settle t) : s.history = t.history :=
  congrArg (fun r => r.history) h

theorem accepted_of_settle_eq {s t : State} (h : settle s = settle t) : s.accepted = t.accepted :=
  congrArg (fun r => r.accepted) h

/-- Words lead states that settle alike to states that settle alike. -/
theorem acceptAll_of_settle_eq {ws : List Word} {s s' u : State} (hs : settle s' = settle s)
    (hu : acceptAll ws s = .next u) : ∃ u', acceptAll ws s' = .next u' ∧ settle u' = settle u := by
  obtain ⟨p, hp⟩ := exists_graft_of_acceptAll ws s.cfg s.block
  cases (hp s rfl rfl).symm.trans hu
  refine ⟨graft s' p, hp s' (cfg_of_settle_eq hs) (block_of_settle_eq hs), ?_⟩
  rw [← settle_graft_settle s', hs, settle_graft_settle]

/-- An accepted word acts alike whatever is presented behind it. -/
theorem acceptWord_setInput {w : Word} {s t : State} (h : acceptWord w s = .next t) (es : List Event) :
    acceptWord w (setInput es s) = .next (setInput es t) := by
  have hfresh : ∀ r : State, acceptWord w r = onNext (graft r) (acceptWord w (freshAt r.cfg r.block)) := by
    intro r
    rw [← acceptWord_graft, graft_freshAt]
  obtain ⟨p, hp⟩ := acceptWord_total w (freshAt s.cfg s.block)
  rw [hfresh, hp] at h
  cases h
  exact (hfresh _).trans (congrArg (onNext _) hp)

/-! ### A consumer that keeps taking -/

/-- Once reset, with a consumer that takes every outstanding word at every step. -/
structure KeepsTaking (s : State) : Prop where
  resetDone : s.resetDone = true
  consumer : s.consumer = []
  consumerRest : s.consumerRest = .takesAll

theorem KeepsTaking.setInput {s : State} (h : KeepsTaking s) (es : List Event) : KeepsTaking (setInput es s) :=
  ⟨h.resetDone, h.consumer, h.consumerRest⟩

theorem KeepsTaking.acceptWord {s t : State} {w : Word} (h : KeepsTaking s)
    (hacc : Machine.acceptWord w s = .next t) : KeepsTaking t := by
  obtain ⟨u, hkept, rfl⟩ := acceptWord_portsKept hacc
  exact ⟨hkept.resetDone.trans h.resetDone, hkept.consumer.trans h.consumer, hkept.consumerRest.trans h.consumerRest⟩

theorem KeepsTaking.drain_pending {s : State} (h : KeepsTaking s) : (drain s).pending = [] := by
  rw [drain_of_keeps_taking h.consumer h.consumerRest]

theorem KeepsTaking.drain {s : State} (h : KeepsTaking s) : KeepsTaking (drain s) := by
  rw [drain_of_keeps_taking h.consumer h.consumerRest]
  exact ⟨h.resetDone, h.consumer, h.consumerRest⟩

theorem KeepsTaking.drain_eq_settle {s : State} (h : KeepsTaking s) (hin : s.input = []) :
    Machine.drain s = settle s := by
  rw [drain_of_keeps_taking h.consumer h.consumerRest, settle, output, ← hin, ← h.consumer]

theorem drain_setInput (es : List Event) (s : State) : drain (setInput es s) = setInput es (drain s) := by
  cases hc : s.consumer with
  | nil =>
    have hc' : (setInput es s).consumer = [] := hc
    unfold drain
    rw [hc, hc']
    rfl
  | cons n ns => rw [drain_of_cons hc, drain_of_cons (s := setInput es s) hc]; rfl

/-- The machine goes from `s` to `t` in one step for each word of `ws`, whatever is presented behind them, and so does
a run. -/
structure LeadsTo (ws : List Word) (s t : State) : Prop where
  steps_eq : ∀ es, steps ws.length (setInput (ws.map Event.word ++ es) s) = .next (setInput es t)
  runSteps_eq : ∀ es k, runSteps (ws.length + k) (setInput (ws.map Event.word ++ es) s) = runSteps k (setInput es t)

theorem LeadsTo.nil (s : State) : LeadsTo [] s s where
  steps_eq _ := rfl
  runSteps_eq es k := by simp

theorem LeadsTo.cons {w : Word} {ws : List Word} {s t u : State}
    (hstep : ∀ es, step (setInput (.word w :: es) s) = .next (setInput es t)) (h : LeadsTo ws t u) :
    LeadsTo (w :: ws) s u where
  steps_eq es := by
    rw [List.length_cons, List.map_cons, List.cons_append, steps_succ (hstep _), h.steps_eq]
  runSteps_eq es k := by
    rw [List.length_cons, List.map_cons, List.cons_append, Nat.succ_add,
      runSteps_of_step (runEnded_of_word rfl) (hstep _), h.runSteps_eq]

/-- A consumer that keeps taking holds nothing off: each step accepts the next word. -/
theorem KeepsTaking.step_word {s t : State} {w : Word} (h : KeepsTaking s)
    (hacc : Machine.acceptWord w (Machine.drain s) = .next t) (es : List Event) :
    step (Machine.setInput (.word w :: es) s) = .next (Machine.setInput es t) := by
  have hp : (Machine.drain (Machine.setInput (.word w :: es) s)).pending = [] := (h.setInput _).drain_pending
  rw [step_of_accepted (s := Machine.setInput (.word w :: es) s) h.resetDone rfl hp, drain_setInput]
  exact acceptWord_setInput hacc es

/-- The machine ends, up to what the consumer has taken, where plain acceptance ends. -/
theorem KeepsTaking.exists_leadsTo {s u : State} {ws : List Word} (h : KeepsTaking s)
    (hu : acceptAll ws s = .next u) : ∃ t, LeadsTo ws s t ∧ KeepsTaking t ∧ settle t = settle u := by
  induction ws generalizing s u with
  | nil =>
    cases hu
    exact ⟨s, .nil s, h, rfl⟩
  | cons w ws ih =>
    obtain ⟨u', hu', hsettle⟩ := acceptAll_of_settle_eq (settle_drain s) hu
    obtain ⟨r, hr⟩ := acceptWord_total w (Machine.drain s)
    rw [acceptAll_cons hr] at hu'
    obtain ⟨t, hleads, hkeeps, ht⟩ := ih (h.drain.acceptWord hr) hu'
    exact ⟨t, hleads.cons (h.step_word hr), hkeeps, ht.trans hsettle⟩

theorem LeadsTo.presenting {ws : List Word} {s t : State} (h : LeadsTo ws s t) :
    steps ws.length (presenting ws s) = .next (setInput [] t) := by
  have hsteps := h.steps_eq []
  rwa [List.append_nil] at hsteps

/-- Settles O54: the machine's end state and plain acceptance's settle alike. -/
theorem presentedWordsAreAcceptedInOrder : Obligations.PresentedWordsAreAcceptedInOrder := by
  intro ws s hr hc hrest
  obtain ⟨u, hu⟩ := acceptAll_total ws s
  obtain ⟨t, hleads, -, hsettle⟩ := KeepsTaking.exists_leadsTo ⟨hr, hc, hrest⟩ hu
  have haccepted := accepted_of_settle_eq hsettle
  exact ⟨setInput [] t, u, hleads.presenting, hu, block_of_settle_eq hsettle, output_of_settle_eq hsettle,
    history_of_settle_eq hsettle, haccepted, haccepted.trans (acceptAll_accepted hu), rfl,
    (cfg_of_settle_eq hsettle).trans (acceptAll_cfg hu)⟩

/-- Settles O44: the words make the same of the two blocks, and both states' pasts stand before it. -/
theorem newOutputDependsOnlyOnBlockAndWords : Obligations.NewOutputDependsOnlyOnBlockAndWords := by
  intro ws s1 s2 hr1 hr2 hc1 hc2 hrest1 hrest2 hblock hcfg
  obtain ⟨p, hp⟩ := exists_graft_of_acceptAll ws s2.cfg s2.block
  obtain ⟨t1, hleads1, -, hsettle1⟩ := KeepsTaking.exists_leadsTo ⟨hr1, hc1, hrest1⟩ (hp s1 hcfg hblock)
  obtain ⟨t2, hleads2, -, hsettle2⟩ := KeepsTaking.exists_leadsTo ⟨hr2, hc2, hrest2⟩ (hp s2 rfl rfl)
  refine ⟨setInput [] t1, setInput [] t2, p.pending, p.history.map FaultRecord.code, hleads1.presenting,
    hleads2.presenting, ?_, ?_, ?_, ?_, ?_⟩
  · exact (block_of_settle_eq hsettle1).trans (block_of_settle_eq hsettle2).symm
  · exact (output_of_settle_eq hsettle1).trans (output_graft s1 p)
  · exact (output_of_settle_eq hsettle2).trans (output_graft s2 p)
  · exact (congrArg _ (history_of_settle_eq hsettle1)).trans (history_code_graft s1 p)
  · exact (congrArg _ (history_of_settle_eq hsettle2)).trans (history_code_graft s2 p)

/-! ### The end of a run (R199) -/

theorem runFinished_settle (s : State) : runFinished (settle s) = true := by
  simp [runFinished, settle, wordsLeft]

theorem runEnded_settle (s : State) : runEnded (settle s) = true := by
  rw [runEnded, runFinished_settle, Bool.true_or]

theorem step_settle (s : State) : step (settle s) = .next (settle s) := by
  rw [step_of_nothing_presented rfl, drain_of_nothing_outstanding rfl rfl]

theorem runEnded_of_no_input {s : State} (hin : s.input = []) : runEnded s = true ↔ s.pending = [] := by
  simp [runEnded, runFinished, resetNext, hin, wordsLeft]

theorem observation_of_finished {s₀ s : State} {new : List Word} (h : runFinished s = true)
    (hout : output s = output s₀ ++ new) : observation s₀ s = some (.finished s.block new) := by
  rw [observation, if_pos h, runOutput, hout, List.drop_left]

theorem observation_of_cut {s₀ s : State} {new : List Word} {p : Option Word} {rest : List Event}
    (hin : s.input = .rst p :: rest) (hleft : p.toList ++ wordsLeft rest ≠ [] ∨ s.pending ≠ [])
    (hout : output s = output s₀ ++ new) : observation s₀ s = some (.cutShort new) := by
  have hnot : runFinished s = false := by
    rw [runFinished, hin, wordsLeft]
    rcases hleft with hwords | hpending
    · rw [decide_eq_false hwords, Bool.false_and]
    · rw [decide_eq_false hpending, Bool.and_false]
  have hnext : resetNext s = true := by rw [resetNext, hin]
  rw [observation, if_neg (by rw [hnot]; decide), if_pos hnext, runOutput, hout, List.drop_left]

/-- One step with nothing presented settles a state whose consumer keeps taking. -/
theorem KeepsTaking.step_of_no_input {t : State} (h : KeepsTaking t) :
    step (Machine.setInput [] t) = .next (settle t) := by
  rw [step_of_nothing_presented rfl, (h.setInput []).drain_eq_settle rfl, settle_setInput]

/-- A run with nothing presented and everything taken has settled already. -/
theorem KeepsTaking.runSteps_of_no_input {t : State} (h : KeepsTaking t) (k : Nat) :
    runSteps (1 + k) (Machine.setInput [] t) = .next (settle t) := by
  cases hend : runEnded (Machine.setInput [] t) with
  | false =>
    rw [Nat.add_comm, runSteps_of_step hend h.step_of_no_input, runSteps_of_ended (runEnded_settle t)]
  | true =>
    have hp : t.pending = [] := (runEnded_of_no_input (s := Machine.setInput [] t) rfl).mp hend
    have hself : Machine.drain (Machine.setInput [] t) = Machine.setInput [] t :=
      drain_of_nothing_outstanding hp h.consumer
    rw [runSteps_of_ended hend, ← hself, (h.setInput []).drain_eq_settle rfl, settle_setInput]

/-- Settles O45: the words lead to a state that one more step settles; with rst behind them, a run stops where they
lead. -/
theorem finiteInputIsProcessedInFull : Obligations.FiniteInputIsProcessedInFull := by
  intro ws s hr hc hrest
  obtain ⟨u, hu⟩ := acceptAll_total ws s
  obtain ⟨t, hleads, hkeeps, hsettle⟩ := KeepsTaking.exists_leadsTo ⟨hr, hc, hrest⟩ hu
  obtain ⟨new, hnew⟩ := acceptAll_output hu
  have hout : output t = output s ++ new := (output_of_settle_eq hsettle).trans hnew
  have haccepted : t.accepted = s.accepted + ws.length :=
    (accepted_of_settle_eq hsettle).trans (acceptAll_accepted hu)
  have hsettled : output (settle t) = output s ++ new := (output_of_settle_eq (settle_settle t)).trans hout
  refine ⟨⟨settle t, new, ?_, runEnded_settle t, rfl, rfl, haccepted, hsettled,
    observation_of_finished (runFinished_settle t) hsettled, fun k => ?_⟩, fun p rest => ?_⟩
  · rw [steps_add hleads.presenting, steps_succ hkeeps.step_of_no_input]
    rfl
  · have hrun := hleads.runSteps_eq [] (1 + k)
    rw [List.append_nil, ← Nat.add_assoc] at hrun
    exact hrun.trans (hkeeps.runSteps_of_no_input k)
  · have hended : runEnded (setInput (.rst p :: rest) t) = true := runEnded_of_rst rfl
    refine ⟨setInput [] t, setInput (.rst p :: rest) t, new, hleads.presenting, rfl, hout, haccepted, hended,
      fun k => ?_, fun hleft => observation_of_cut rfl hleft hout⟩
    rw [hleads.runSteps_eq, runSteps_of_ended hended]

/-! ### A consumer that pauses, and one that stops -/

/-- However the consumer begins, once it keeps taking the machine settles where the words alone lead. -/
theorem steps_with_pauses {ns : List Nat} {ws : List Word} {s u : State} (hr : s.resetDone = true)
    (hrest : s.consumerRest = .takesAll) (hc : s.consumer = ns) (hu : acceptAll ws s = .next u) (k : Nat) :
    steps (ns.length + ws.length + 1 + k) (presenting ws s) = .next (settle u) := by
  induction ns generalizing ws s u k with
  | nil =>
    obtain ⟨t, hleads, hkeeps, hsettle⟩ := KeepsTaking.exists_leadsTo ⟨hr, hc, hrest⟩ hu
    have hcount : ([] : List Nat).length + ws.length + 1 + k = ws.length + (k + 1) := by
      rw [List.length_nil]
      omega
    rw [hcount, steps_add hleads.presenting, steps_succ hkeeps.step_of_no_input, hsettle,
      steps_of_step_self (step_settle u)]
  | cons n ns ih =>
    have hdrained : (drain s).consumer = ns := by rw [drain_of_cons hc]
    have hr' : (drain s).resetDone = true := (drain_resetDone s).trans hr
    have hrest' : (drain s).consumerRest = .takesAll := (drain_consumerRest s).trans hrest
    have hturn : drain (presenting ws s) = presenting ws (drain s) := drain_setInput _ s
    have hcount : ∀ m, (n :: ns).length + m + 1 + k = ns.length + m + 1 + k + 1 := by
      intro m
      rw [List.length_cons]
      omega
    obtain ⟨u', hu', hsettle⟩ := acceptAll_of_settle_eq (settle_drain s) hu
    rw [← hsettle, hcount]
    cases ws with
    | nil =>
      have hstep : step (presenting [] s) = .next (presenting [] (drain s)) :=
        (step_of_nothing_presented rfl).trans (congrArg _ hturn)
      rw [steps_succ hstep]
      exact ih hr' hrest' hdrained hu' k
    | cons w ws =>
      by_cases hp : (drain s).pending = []
      · obtain ⟨r, hacc⟩ := acceptWord_total w (drain s)
        obtain ⟨v, hkept, hv⟩ := acceptWord_portsKept hacc
        have hstep : step (presenting (w :: ws) s) = .next (presenting ws r) := by
          rw [step_of_accepted (s := presenting (w :: ws) s) hr rfl (by rw [hturn]; exact hp), hturn]
          exact acceptWord_setInput hacc _
        rw [acceptAll_cons hacc] at hu'
        have hcount' : ns.length + (w :: ws).length + 1 + k = ns.length + ws.length + 1 + (k + 1) := by
          rw [List.length_cons]
          omega
        rw [steps_succ hstep, hcount']
        subst hv
        exact ih (s := countWord v) (hkept.resetDone.trans hr') (hkept.consumerRest.trans hrest')
          (hkept.consumer.trans hdrained) hu' _
      · have hstep : step (presenting (w :: ws) s) = .next (presenting (w :: ws) (drain s)) := by
          rw [step_of_held_off (s := presenting (w :: ws) s) hr rfl (by rw [hturn]; exact hp), hturn]
        rw [steps_succ hstep]
        exact ih hr' hrest' hdrained hu' k

/-- Settles O46: both consumers' runs settle where the words alone lead. -/
theorem holdOffChangesWhenNotWhat : Obligations.HoldOffChangesWhenNotWhat := by
  intro ws ns s hr hc hrest
  obtain ⟨u, hu⟩ := acceptAll_total ws s
  have hpaused : settle { s with consumer := ns } = settle s := rfl
  obtain ⟨v, hv, hsettle⟩ := acceptAll_of_settle_eq hpaused hu
  refine ⟨settle u, settle v, ?_, steps_with_pauses (s := { s with consumer := ns }) hr hrest rfl hv 0, hsettle⟩
  have hsteps := steps_with_pauses hr hrest hc hu 0
  rwa [List.length_nil, Nat.zero_add] at hsteps

/-- A consumer that stops short of the outstanding words still does so after its turn. -/
theorem sum_consumer_lt_drain {s : State} (hrest : s.consumerRest = .takesNone)
    (hlt : s.consumer.sum < s.pending.length) : (drain s).consumer.sum < (drain s).pending.length := by
  cases hc : s.consumer with
  | nil => rwa [drain_of_stopped hc hrest]
  | cons n ns =>
    rw [hc, List.sum_cons] at hlt
    rw [drain_of_cons hc]
    change ns.sum < (s.pending.drop n).length
    rw [List.length_drop]
    omega

theorem pending_ne_nil_of_sum_lt {s : State} (hlt : s.consumer.sum < s.pending.length) : s.pending ≠ [] :=
  List.ne_nil_of_length_pos (Nat.zero_lt_of_lt hlt)

/-- Settles O60: the consumer never takes the last outstanding word, so that every step is its turn alone. -/
theorem stoppedConsumerHoldsOffForEver : Obligations.StoppedConsumerHoldsOffForEver := by
  intro s w rest hr hin hrest hlt k
  induction k generalizing s with
  | zero => exact ⟨s, rfl, hin, rfl, rfl, rfl, rfl, pending_ne_nil_of_sum_lt hlt, runEnded_of_word hin⟩
  | succ k ih =>
    have hlt' := sum_consumer_lt_drain hrest hlt
    have hstep := step_of_held_off hr hin (pending_ne_nil_of_sum_lt hlt')
    obtain ⟨t, hsteps, htin, hblock, haccepted, hhist, hout, hp, hend⟩ :=
      ih (drain s) ((drain_resetDone s).trans hr) ((drain_input s).trans hin) ((drain_consumerRest s).trans hrest) hlt'
    exact ⟨t, (steps_succ hstep k).trans hsteps, htin, hblock.trans (drain_block s),
      haccepted.trans (drain_accepted s), hhist.trans (drain_history s), hout.trans (drain_output s), hp, hend⟩

end Sys2Proof.Machine
end

section
/-! SUPPORT. The source's two functions: the sum as ACC follows it, the checksum as its complement, a packet written out,
and the statements about them settled from these (40_checksum.md sections 1 and 3, 41_framer.md sections 1 and 3). -/

namespace Sys2Proof.Machine

/-! ### The sum of a byte sequence, and its complement -/

theorem byteSum_append (s t : List Byte) : byteSum (s ++ t) = byteSum s + byteSum t := by
  simp [byteSum]

/-- The 8-bit accumulation is the integer sum, read modulo 256 (R101, R103). -/
theorem accSum_eq_ofNat (s : List Byte) : accSum s = BitVec.ofNat 8 (byteSum s % 256) := by
  induction s using List.reverseRecOn with
  | nil => rfl
  | append_singleton s d ih =>
    have hsum : byteSum (s ++ [d]) = byteSum s + d.toNat := by simp [byteSum]
    rw [accSum_append_singleton, ih, hsum]
    bv_omega

/-- The complement of an unbounded integer sum, cut to 8 bits, is the 8-bit complement of the sum (R101). -/
theorem complementLow8_eq (n : Nat) : complementLow8 n = ~~~(BitVec.ofNat 8 (n % 256)) := by
  have hmod : BitVec.ofNat 8 (n % 256) = BitVec.ofNat 8 n := by bv_omega
  rw [hmod, ← BitVec.ofInt_negSucc_eq_not_ofNat]
  rfl

theorem cks_of_two_le {b : List Byte} (h : 2 ≤ b.length) :
    cks b = some (~~~(BitVec.ofNat 8 (byteSum (b.drop 2) % 256))) := by
  rw [cks, if_pos h, complementLow8_eq]

/-- The checksum is the complement of what ACC holds after the bytes from index 2 (R106). -/
theorem cks_eq_not8_accSum {b : List Byte} (h : 2 ≤ b.length) : cks b = some (not8 (accSum (b.drop 2))) := by
  rw [cks_of_two_le h, accSum_eq_ofNat, not8]

theorem toNat_not_ofNat_mod (n : Nat) : (~~~(BitVec.ofNat 8 (n % 256))).toNat = 0xFF - n % 256 := by
  bv_omega

/-! ### The packet of a payload -/

theorem cks_hdr_append (p : List Byte) : cks (hdr ++ p) = some (not8 (accSum p)) := by
  rw [cks_eq_not8_accSum (by simp [hdr])]
  rfl

/-- A packet is the header, the payload and the complement of the payload's sum. -/
theorem pkt_eq (p : List Byte) : pkt p = hdr ++ p ++ [not8 (accSum p)] := by
  rw [pkt, cks_hdr_append]
  rfl

theorem pkt_dropLast (p : List Byte) : (pkt p).dropLast = hdr ++ p := by
  rw [pkt_eq, List.dropLast_concat]

theorem pkt_getLast? (p : List Byte) : (pkt p).getLast? = some (not8 (accSum p)) := by
  rw [pkt_eq, List.getLast?_concat]

theorem pkt_drop_two (p : List Byte) : (pkt p).drop 2 = p ++ [not8 (accSum p)] := by
  rw [pkt_eq]
  rfl

theorem cks_pkt_dropLast (p : List Byte) : cks (pkt p).dropLast = (pkt p).getLast? := by
  rw [pkt_dropLast, pkt_getLast?, cks_hdr_append]

/-! ### The statements -/

/-- Settles O47: `cks_of_two_le`, and its value as a number. -/
theorem checksumIsComplementOfTheByteSum : Obligations.ChecksumIsComplementOfTheByteSum := by
  refine fun b h => ⟨cks_of_two_le h, fun c hc => ?_⟩
  rw [cks_of_two_le h] at hc
  cases hc
  exact toNat_not_ofNat_mod _

/-- Settles O48: the header's two bytes are those that the checksum skips. -/
theorem packetChecksumIsThePayloads : Obligations.PacketChecksumIsThePayloads := by
  intro p
  have hsum : ~~~(BitVec.ofNat 8 (byteSum p % 256)) = not8 (accSum p) := by rw [accSum_eq_ofNat, not8]
  rw [hsum]
  exact ⟨cks_hdr_append p, pkt_eq p⟩

/-- Settles O49: a sum and its complement's distance from 0xFF. -/
theorem packetBytesAfterHeaderSumToFF : Obligations.PacketBytesAfterHeaderSumToFF := by
  refine fun p => ⟨?_, cks_pkt_dropLast p⟩
  have hlast : byteSum [not8 (accSum p)] = 0xFF - byteSum p % 256 := by
    rw [accSum_eq_ofNat, not8, ← toNat_not_ofNat_mod]
    simp [byteSum]
  rw [pkt_drop_two, byteSum_append, hlast]
  omega

/-- Settles O50: the packet written out, cut at either end. -/
theorem packetPreservesThePayload : Obligations.PacketPreservesThePayload := by
  refine fun p => ⟨?_, (cks_pkt_dropLast p).symm, fun hp => ?_, ?_⟩
  · rw [pkt_eq]
    rfl
  · obtain ⟨d, p, rfl⟩ := List.exists_cons_of_ne_nil hp
    rw [pkt_eq]
    rfl
  · rw [pkt_drop_two, List.dropLast_concat]

end Sys2Proof.Machine
end

section
/-! SUPPORT. Whole operations: what the DATA words of an open operation lead to, a checksum and a framing operation from
IDLE to IDLE or to their fault, any list of the source's calls, and the statements about them settled from these
(40_checksum.md section 3, 41_framer.md section 3, 10_state.md section 2). -/

namespace Sys2Proof.Machine

/-! ### Words that change the block and nothing else -/

/-- `n` words accepted, which leave the block `b` and no other trace. -/
def advance (b : Block) (n : Nat) (s : State) : State := { s with block := b, accepted := s.accepted + n }

@[simp] theorem advance_block (b : Block) (n : Nat) (s : State) : (advance b n s).block = b := rfl

theorem advance_advance (b b' : Block) (m n : Nat) (s : State) :
    advance b' n (advance b m s) = advance b' (m + n) s := by
  simp [advance, Nat.add_assoc]

theorem emit_advance (ws : List Word) (b : Block) (n : Nat) (s : State) :
    emit ws (advance b n s) = advance b n (emit ws s) := rfl

theorem acceptAll_singleton {w : Word} {s t : State} (h : acceptWord w s = .next t) : acceptAll [w] s = .next t :=
  acceptAll_cons h []

/-- DATA words that each lead from the block of a byte list to the block of the list with their byte behind it lead to
the block of the whole list. -/
theorem acceptAll_data_words {B : List Byte → Block} {c : Config} {max : Nat}
    (hword : ∀ (q : List Byte) (d : Byte) (s : State), q.length < max → s.cfg = c → s.block = B q →
      acceptWord (encode (.data d)) s = .next (advance (B (q ++ [d])) 1 s))
    (q bs : List Byte) {s : State} (hlen : q.length + bs.length ≤ max) (hc : s.cfg = c) (hb : s.block = B q) :
    acceptAll ((bs.map Instr.data).map encode) s = .next (advance (B (q ++ bs)) bs.length s) := by
  induction bs generalizing q s with
  | nil =>
    rw [List.append_nil, ← hb]
    rfl
  | cons d bs ih =>
    rw [List.length_cons] at hlen
    have hfirst := hword q d s (by omega) hc hb
    have hrest := ih (q ++ [d]) (s := advance (B (q ++ [d])) 1 s)
      (by rw [List.length_append, List.length_singleton]; omega) hc rfl
    rw [List.map_cons, List.map_cons, acceptAll_cons hfirst, hrest, advance_advance, List.append_assoc,
      List.singleton_append, List.length_cons, Nat.add_comm 1]

/-- In ERR every word but ABORT and STATUS is lost (R167). -/
theorem acceptAll_discarded {ws : List Word} {s : State} (hm : s.block.mode = .err)
    (hws : ∀ w ∈ ws, w ≠ 0x5000#16 ∧ w ≠ 0x6000#16) :
    acceptAll ws s = .next (advance s.block ws.length s) := by
  induction ws generalizing s with
  | nil => rfl
  | cons w ws ih =>
    obtain ⟨⟨ha, hs⟩, hrest⟩ := List.forall_mem_cons.mp hws
    have hfirst : acceptWord w s = .next (advance s.block 1 s) := acceptWord_of_err hm ha hs
    rw [acceptAll_cons hfirst, ih (s := advance s.block 1 s) hm hrest, advance_advance, List.length_cons,
      Nat.add_comm 1]
    rfl

/-! ### A checksum operation -/

theorem map_encode_csumCall (b : List Byte) :
    (csumCall b).map encode = (Instr.csumBegin :: b.map Instr.data).map encode ++ [0x4000#16] := by
  rw [csumCall, List.map_append]
  rfl

theorem acceptWord_data_of_counting {s : State} {a : Byte} (hb : s.block = csumBlock 0#2 a) (d : Byte) :
    acceptWord (encode (.data d)) s = .next (advance (csumBlock 0#2 (addByte a d)) 1 s) := by
  have hx : exec (.data d) s = .next (setBlock (csumBlock 0#2 (addByte a d)) s) := by
    rw [exec_data_of_csum (by rw [hb]; rfl), csumData_of_skip_eq_zero (by rw [hb]; rfl), hb]
    rfl
  rw [acceptWord_encode, hx]
  rfl

theorem acceptWord_endOp_of_skipping {s : State} {k : BitVec 2} {a : Byte} (hb : s.block = csumBlock k a)
    (hk : k ≠ 0#2) : acceptWord 0x4000#16 s = .next (countWord (raiseFault .short s)) := by
  rw [acceptWord_of_decode (i := .endOp) (by decide), exec_endOp_of_csum (by rw [hb]; rfl),
    csumEnd_of_skip_ne_zero (by rw [hb]; exact hk)]
  rfl

/-- With both skipped bytes behind it, an operation sums every byte. -/
theorem acceptAll_data_of_counting (bs : List Byte) {s : State} (hb : s.block = csumBlock 0#2 0#8) :
    acceptAll ((bs.map Instr.data).map encode) s = .next (advance (csumBlock 0#2 (accSum bs)) bs.length s) := by
  refine acceptAll_data_words (B := fun q => csumBlock 0#2 (accSum q)) (c := s.cfg) (max := bs.length) ?_ [] bs
    (by simp) rfl hb
  intro q d r _ _ hr
  rw [accSum_append_singleton]
  exact acceptWord_data_of_counting hr d

theorem acceptAll_csumCall {b : List Byte} {s : State} (hb : s.block = Block.idle) (hlen : 2 ≤ b.length) :
    acceptAll ((csumCall b).map encode) s =
      .next (advance Block.idle (b.length + 2) (emit [resultWord (not8 (accSum (b.drop 2)))] s)) := by
  match b, hlen with
  | x :: y :: bs, _ =>
    have hwords : (csumCall (x :: y :: bs)).map encode = 0x1000#16 :: (0x3000#16 ||| zext16 x)
        :: (0x3000#16 ||| zext16 y) :: ((bs.map Instr.data).map encode ++ [0x4000#16]) := by
      rw [map_encode_csumCall, ← encode_data, ← encode_data]
      rfl
    have hskip := acceptAll_csumBegin_two_data hb x y ((bs.map Instr.data).map encode ++ [0x4000#16])
    have hdata := acceptAll_data_of_counting bs (s := advance (csumBlock 0#2 0#8) 3 s) rfl
    have hend : acceptWord 0x4000#16 (advance (csumBlock 0#2 (accSum bs)) bs.length (advance (csumBlock 0#2 0#8) 3 s))
        = .next (advance Block.idle 1 (emit [resultWord (not8 (accSum bs))]
            (advance (csumBlock 0#2 (accSum bs)) bs.length (advance (csumBlock 0#2 0#8) 3 s)))) :=
      acceptWord_endOp_of_counting rfl
    have hcount : 3 + (bs.length + 1) = (x :: y :: bs).length + 2 := by
      rw [List.length_cons, List.length_cons]
      omega
    rw [hwords, hskip]
    refine (acceptAll_append hdata _).trans ((acceptAll_singleton hend).trans ?_)
    rw [emit_advance, emit_advance, advance_advance, advance_advance, hcount]
    rfl

/-- An operation with fewer than two bytes waits for more of them, with nothing emitted. -/
theorem acceptAll_short_csum {b : List Byte} {s : State} (hb : s.block = Block.idle) (hlen : b.length < 2) :
    ∃ k n, k ≠ 0#2 ∧
      acceptAll ((Instr.csumBegin :: b.map Instr.data).map encode) s = .next (advance (csumBlock k 0#8) n s) := by
  have hbegin : acceptWord (encode .csumBegin) s = .next (advance (csumBlock 2#2 0#8) 1 s) :=
    acceptWord_csumBegin_of_idle hb
  match b, hlen with
  | [], _ => exact ⟨2#2, 1, by decide, acceptAll_singleton hbegin⟩
  | [x], _ =>
    have hdata := acceptWord_data_of_skipping (s := advance (csumBlock 2#2 0#8) 1 s) rfl (by decide) x
    rw [← encode_data] at hdata
    exact ⟨1#2, 2, by decide, (acceptAll_cons hbegin _).trans (acceptAll_singleton hdata)⟩

/-- Settles O51: `acceptAll_csumCall`, and SHORT at the END of a shorter operation. -/
theorem csumOperationComputesTheChecksum : Obligations.CsumOperationComputesTheChecksum := by
  refine fun b s hb => ⟨fun hlen => ?_, fun hlen => ?_⟩
  · exact ⟨_, _, cks_eq_not8_accSum hlen, acceptAll_csumCall hb hlen, rfl, rfl, rfl⟩
  · obtain ⟨k, n, hk, hdata⟩ := acceptAll_short_csum hb hlen
    have hend := acceptWord_endOp_of_skipping (s := advance (csumBlock k 0#8) n s) rfl hk
    refine ⟨_, _, hdata, rfl, rfl, hend, rfl, ?_⟩
    rw [map_encode_csumCall, acceptAll_append hdata, acceptAll_singleton hend]

/-! ### A framing operation -/

theorem map_encode_frameCall (p : List Byte) :
    (frameCall p).map encode = (Instr.frameBegin :: p.map Instr.data).map encode ++ [0x4000#16] := by
  rw [frameCall, List.map_append]
  rfl

theorem acceptWord_frameBegin_of_idle {s : State} (hb : s.block = Block.idle) :
    acceptWord (encode .frameBegin) s = .next (advance (frameBlock []) 1 s) := by
  have hx : exec .frameBegin s = .next (setBlock (frameBlock []) s) := by
    rw [exec_frameBegin_of_idle (by rw [hb]; rfl), openFrame, hb]
    rfl
  rw [acceptWord_encode, hx]
  rfl

theorem acceptWord_data_of_room {s : State} {q : List Byte} (hb : s.block = frameBlock q)
    (hroom : q.length < s.cfg.maxPayload) (d : Byte) :
    acceptWord (encode (.data d)) s = .next (advance (frameBlock (q ++ [d])) 1 s) := by
  have hx : exec (.data d) s = .next (setBlock (frameBlock (q ++ [d])) s) := by
    rw [exec_data_of_frame (by rw [hb]; rfl), frameData_of_room (by rw [hb]; exact hroom.ne), hb,
      ← frameBlock_with_byte]
    rfl
  rw [acceptWord_encode, hx]
  rfl

theorem acceptWord_data_of_full {s : State} {q : List Byte} (hb : s.block = frameBlock q)
    (hfull : q.length = s.cfg.maxPayload) (d : Byte) :
    acceptWord (encode (.data d)) s = .next (countWord (raiseFault .overflow s)) := by
  rw [acceptWord_encode, exec_data_of_frame (by rw [hb]; rfl), frameData_of_full (by rw [hb]; exact hfull)]
  rfl

theorem acceptWord_endOp_of_frameBlock {s : State} {q : List Byte} (hb : s.block = frameBlock q) :
    acceptWord 0x4000#16 s = .next (advance Block.idle 1 (emit (packetWords q (accSum q)) s)) := by
  rw [acceptWord_of_decode (i := .endOp) (by decide), exec_endOp_of_frame (by rw [hb]; rfl), frameEnd, hb]
  rfl

/-- A payload that fits is in BUF, with its sum in ACC, before END. -/
theorem acceptAll_open_frame {p : List Byte} {s : State} (hb : s.block = Block.idle)
    (hlen : p.length ≤ s.cfg.maxPayload) :
    acceptAll ((Instr.frameBegin :: p.map Instr.data).map encode) s =
      .next (advance (frameBlock p) (p.length + 1) s) := by
  have hdata : acceptAll ((p.map Instr.data).map encode) (advance (frameBlock []) 1 s) =
      .next (advance (frameBlock p) p.length (advance (frameBlock []) 1 s)) := by
    refine acceptAll_data_words (B := frameBlock) (c := s.cfg) (max := s.cfg.maxPayload) ?_ [] p (by simpa using hlen)
      rfl rfl
    intro q d r hq hc hr
    exact acceptWord_data_of_room hr (hc ▸ hq) d
  rw [List.map_cons, acceptAll_cons (acceptWord_frameBegin_of_idle hb), hdata, advance_advance, Nat.add_comm 1]

theorem acceptAll_frameCall {p : List Byte} {s : State} (hb : s.block = Block.idle)
    (hlen : p.length ≤ s.cfg.maxPayload) :
    acceptAll ((frameCall p).map encode) s =
      .next (advance Block.idle (p.length + 2) (emit (packetWords p (accSum p)) s)) := by
  rw [map_encode_frameCall, acceptAll_append (acceptAll_open_frame hb hlen),
    acceptAll_singleton (acceptWord_endOp_of_frameBlock rfl), emit_advance, advance_advance]

/-- DATA and END are neither ABORT nor STATUS. -/
theorem encode_data_endOp_ne {ps : List Byte} :
    ∀ w ∈ (ps.map Instr.data ++ [Instr.endOp]).map encode, w ≠ 0x5000#16 ∧ w ≠ 0x6000#16 := by
  intro w hw
  obtain ⟨i, hi, rfl⟩ := List.mem_map.mp hw
  have habort : encode i ≠ encode .abort := by
    rw [encode_injective.ne_iff]
    rintro rfl
    simp at hi
  have hstatus : encode i ≠ encode .status := by
    rw [encode_injective.ne_iff]
    rintro rfl
    simp at hi
  exact ⟨habort, hstatus⟩

/-- A payload beyond MAX_PAYLOAD: as many bytes as fit, the byte that overflows, and what is lost in ERR. -/
theorem frameCall_split {p : List Byte} {max : Nat} (h : max < p.length) :
    (frameCall p).map encode = (Instr.frameBegin :: (p.take max).map Instr.data).map encode
      ++ encode (.data p[max]) :: ((p.drop (max + 1)).map Instr.data ++ [Instr.endOp]).map encode := by
  have hp : p = p.take max ++ p[max] :: p.drop (max + 1) := by
    rw [← List.drop_eq_getElem_cons h, List.take_append_drop]
  have hmap : p.map Instr.data
      = (p.take max).map Instr.data ++ Instr.data p[max] :: (p.drop (max + 1)).map Instr.data := by
    rw [← List.map_cons, ← List.map_append, ← hp]
  have hcall : frameCall p = (Instr.frameBegin :: (p.take max).map Instr.data)
      ++ Instr.data p[max] :: ((p.drop (max + 1)).map Instr.data ++ [Instr.endOp]) := by
    rw [frameCall, hmap, List.cons_append, List.append_assoc]
    rfl
  rw [hcall, List.map_append, List.map_cons (l := (p.drop (max + 1)).map Instr.data ++ [Instr.endOp])]

/-- Settles O52: `acceptAll_frameCall`; and for a longer payload a full BUF, the overflowing word, and ERR. -/
theorem frameOperationBuildsThePacket : Obligations.FrameOperationBuildsThePacket := by
  refine fun p s hb => ⟨fun hlen => ?_, fun hlen => ?_⟩
  · refine ⟨hdr ++ p, not8 (accSum p), _, pkt_eq p, ?_, acceptAll_frameCall hb hlen, rfl, rfl, rfl⟩
    rw [List.length_append, Nat.add_comm]
    rfl
  · have htake : (p.take s.cfg.maxPayload).length = s.cfg.maxPayload := List.length_take_of_le hlen.le
    have hopen := acceptAll_open_frame (p := p.take s.cfg.maxPayload) hb htake.le
    have hover := acceptWord_data_of_full
      (s := advance (frameBlock (p.take s.cfg.maxPayload)) ((p.take s.cfg.maxPayload).length + 1) s) rfl htake
      p[s.cfg.maxPayload]
    have hlost := acceptAll_discarded
      (s := countWord (raiseFault .overflow
        (advance (frameBlock (p.take s.cfg.maxPayload)) ((p.take s.cfg.maxPayload).length + 1) s))) rfl
      (encode_data_endOp_ne (ps := p.drop (s.cfg.maxPayload + 1)))
    have hcall := (acceptAll_append hopen _).trans ((acceptAll_cons hover _).trans hlost)
    rw [← frameCall_split hlen] at hcall
    exact ⟨_, _, _, _, List.getElem?_eq_getElem hlen, hopen, rfl, rfl, hover, rfl, hcall, rfl, rfl, rfl⟩

/-! ### Any list of calls -/

theorem response_checksum {b : List Byte} (h : 2 ≤ b.length) :
    (SourceCall.checksum b).response = [resultWord (not8 (accSum (b.drop 2)))] := by
  rw [SourceCall.response, cks_eq_not8_accSum h]
  rfl

theorem response_buildPacket (p : List Byte) : (SourceCall.buildPacket p).response = packetWords p (accSum p) := by
  rw [SourceCall.response, pkt_dropLast, pkt_getLast?]
  rfl

/-- A call within range emits its answer and returns to the reset block. -/
theorem acceptAll_call {call : SourceCall} {s : State} (hb : s.block = Block.idle)
    (hrange : call.inRange s.cfg.maxPayload = true) :
    ∃ n, acceptAll (call.instrs.map encode) s = .next (advance Block.idle n (emit call.response s)) := by
  cases call with
  | checksum b =>
    have hlen : 2 ≤ b.length := of_decide_eq_true hrange
    exact ⟨_, response_checksum hlen ▸ acceptAll_csumCall hb hlen⟩
  | buildPacket p =>
    have hlen : p.length ≤ s.cfg.maxPayload := of_decide_eq_true hrange
    exact ⟨_, response_buildPacket p ▸ acceptAll_frameCall hb hlen⟩

theorem acceptAll_calls {calls : List SourceCall} {s : State} (hb : s.block = Block.idle)
    (hrange : calls.all (SourceCall.inRange s.cfg.maxPayload) = true) :
    ∃ n, acceptAll ((calls.flatMap SourceCall.instrs).map encode) s =
      .next (advance Block.idle n (emit (calls.flatMap SourceCall.response) s)) := by
  induction calls generalizing s with
  | nil => exact ⟨0, by simp [acceptAll, advance, emit, ← hb]⟩
  | cons call calls ih =>
    rw [List.all_cons, Bool.and_eq_true] at hrange
    obtain ⟨hcall, hcalls⟩ := hrange
    obtain ⟨m, hm⟩ := acceptAll_call hb hcall
    obtain ⟨n, hn⟩ := ih (s := advance Block.idle m (emit call.response s)) rfl hcalls
    refine ⟨m + n, ?_⟩
    rw [List.flatMap_cons, List.map_append, acceptAll_append hm, hn, emit_advance, advance_advance,
      List.flatMap_cons]
    simp [emit]

/-- Settles O55: plain acceptance of the calls' words answers them, and the machine settles there. -/
theorem callsInRangeAnswerInOrderWithoutFault : Obligations.CallsInRangeAnswerInOrderWithoutFault := by
  intro calls s hr hc hrest hb hrange
  obtain ⟨n, hn⟩ := acceptAll_calls hb hrange
  obtain ⟨t, hleads, -, hsettle⟩ := KeepsTaking.exists_leadsTo ⟨hr, hc, hrest⟩ hn
  have hsteps := hleads.presenting
  rw [List.length_map] at hsteps
  have hhist : t.history = s.history := (history_of_settle_eq hsettle :)
  exact ⟨setInput [] t, hsteps, block_of_settle_eq hsettle, hhist, (output_of_settle_eq hsettle).trans (output_emit _ s)⟩

/-! ### The consumer that looks for packets (R65, K5) -/

theorem packetsFrom_cons_of_none {w : Word} (h : readOutWord w = none) (cur : List Byte) (ws : List Word) :
    packetsFrom cur (w :: ws) = .error (.notFromCkf w) := by
  rw [packetsFrom, h]

/-- A word that is read goes on to the rest of the stream, and at most puts a packet before what is found there. -/
theorem packetsFrom_cons_of_some {w : Word} {m : OutMsg} (h : readOutWord w = some m) (cur : List Byte)
    (ws : List Word) : ∃ cur' f, packetsFrom cur (w :: ws) = (packetsFrom cur' ws).map f := by
  have hid : ∀ o : Except StreamRefusal (List (List Byte)), o = o.map id := fun o => by cases o <;> rfl
  rw [packetsFrom, h]
  match m with
  | .pkt false b => exact ⟨cur ++ [b], id, hid _⟩
  | .pkt true b => exact ⟨[], _, rfl⟩
  | .result _ => exact ⟨[], id, hid _⟩
  | .fault _ => exact ⟨[], id, hid _⟩
  | .stat _ => exact ⟨[], id, hid _⟩

/-- A stream is read, every word of it, or refused for a word of it that cannot be read. -/
theorem packetsFrom_cases (cur : List Byte) (ws : List Word) :
    (∃ ps, packetsFrom cur ws = .ok ps ∧ ∀ w ∈ ws, (readOutWord w).isSome = true)
    ∨ (∃ w ∈ ws, readOutWord w = none ∧ packetsFrom cur ws = .error (.notFromCkf w)) := by
  induction ws generalizing cur with
  | nil => exact .inl ⟨[], rfl, by simp⟩
  | cons w ws ih =>
    cases hw : readOutWord w with
    | none => exact .inr ⟨w, List.mem_cons_self, hw, packetsFrom_cons_of_none hw cur ws⟩
    | some m =>
      obtain ⟨cur', f, hcons⟩ := packetsFrom_cons_of_some hw cur ws
      rcases ih cur' with ⟨ps, hps, hall⟩ | ⟨v, hv, hnone, herr⟩
      · refine .inl ⟨f ps, by rw [hcons, hps]; rfl, List.forall_mem_cons.mpr ⟨by rw [hw]; rfl, hall⟩⟩
      · exact .inr ⟨v, List.mem_cons_of_mem w hv, hnone, by rw [hcons, herr]; rfl⟩

theorem packetsFrom_map_pktWord (cur bs : List Byte) (ws : List Word) :
    packetsFrom cur (bs.map pktWord ++ ws) = packetsFrom (cur ++ bs) ws := by
  induction bs generalizing cur with
  | nil => rw [List.map_nil, List.nil_append, List.append_nil]
  | cons b bs ih =>
    rw [List.map_cons, List.cons_append, packetsFrom, readOutWord_pktWord]
    simp [ih]

theorem packets_packetWords_append (p : List Byte) (ws : List Word) :
    packets (packetWords p (accSum p) ++ ws) = (packets ws).map (fun ps => pkt p :: ps) := by
  rw [packets, packetWords, List.append_assoc, packetsFrom_map_pktWord, List.singleton_append, packetsFrom,
    readOutWord_pktLastWord, pkt_eq]
  rfl

/-- A checksum's answer, where there is one, is no packet. -/
theorem packets_checksum_append (b : List Byte) (ws : List Word) :
    packets ((SourceCall.checksum b).response ++ ws) = packets ws := by
  rw [SourceCall.response]
  cases cks b with
  | none => rfl
  | some c =>
    change packetsFrom [] (resultWord c :: ws) = packets ws
    rw [packetsFrom, readOutWord_resultWord]
    rfl

/-- The packet that a call asks for, if it is a framing call. -/
def callPackets : SourceCall → List (List Byte)
  | .checksum _ => []
  | .buildPacket p => [pkt p]

theorem packets_responses (calls : List SourceCall) :
    packets (calls.flatMap SourceCall.response) = .ok (calls.flatMap callPackets) := by
  induction calls with
  | nil => rfl
  | cons call calls ih =>
    rw [List.flatMap_cons, List.flatMap_cons]
    cases call with
    | checksum b => rw [packets_checksum_append, ih]; rfl
    | buildPacket p => rw [response_buildPacket, packets_packetWords_append, ih]; rfl

/-- Settles O56: the answers one call after another; and the two ways a stream can be taken. -/
theorem consumerFindsExactlyThePackets : Obligations.ConsumerFindsExactlyThePackets := by
  refine ⟨fun calls => ?_, fun ws => ?_, fun ws w h => ?_⟩
  · exact packets_responses calls
  · rcases packetsFrom_cases [] ws with ⟨ps, hps, hall⟩ | ⟨w, hw, hnone, herr⟩
    · exact iff_of_true ⟨ps, hps⟩ hall
    · refine iff_of_false (fun ⟨ps, hps⟩ => ?_) fun hall => ?_
      · cases herr.symm.trans hps
      · have hread := hall w hw
        rw [hnone] at hread
        cases hread
  · rcases packetsFrom_cases [] ws with ⟨ps, hps, -⟩ | ⟨v, hv, hnone, herr⟩
    · cases hps.symm.trans h
    · cases herr.symm.trans h
      exact ⟨hv, hnone⟩

end Sys2Proof.Machine
end

section
/-! SUPPORT. The blocks that words lead to from reset are those of R26's table, and the statement about where a run
starts settled from that (10_state.md section 2, 70_reset_and_hazards.md section 1). -/

namespace Sys2Proof.Machine

/-- Some words lead from the reset state to the block `b`. -/
def Reaches (c : Config) (b : Block) : Prop :=
  ∃ (ws : List Word) (t : State), acceptAll ws (State.resetWith c) = .next t ∧ t.block = b

theorem keepsTaking_resetWith (c : Config) : KeepsTaking (State.resetWith c) := ⟨rfl, rfl, rfl⟩

/-- The machine's steps lead to the same blocks. -/
theorem reaches_iff_steps (c : Config) (b : Block) :
    Reaches c b ↔ ∃ (ws : List Word) (t : State),
      steps ws.length (presenting ws (State.resetWith c)) = .next t ∧ t.block = b := by
  have hsame : ∀ ws u, acceptAll ws (State.resetWith c) = .next u →
      ∃ t, steps ws.length (presenting ws (State.resetWith c)) = .next t ∧ t.block = u.block := by
    intro ws u hu
    obtain ⟨t, hleads, -, hsettle⟩ := (keepsTaking_resetWith c).exists_leadsTo hu
    exact ⟨setInput [] t, hleads.presenting, block_of_settle_eq hsettle⟩
  constructor
  · rintro ⟨ws, u, hu, rfl⟩
    exact ⟨ws, hsame ws u hu⟩
  · rintro ⟨ws, t, ht, rfl⟩
    obtain ⟨u, hu⟩ := acceptAll_total ws (State.resetWith c)
    obtain ⟨t', ht', hblock⟩ := hsame ws u hu
    cases ht.symm.trans ht'
    exact ⟨ws, u, hu, hblock.symm⟩

/-! ### Every reachable block stands in R26's table -/

theorem acceptAll_keeps_blockWf {ws : List Word} {s t : State} (hwf : blockWf s.cfg.maxPayload s.block = true)
    (h : acceptAll ws s = .next t) : blockWf t.cfg.maxPayload t.block = true := by
  induction ws generalizing s with
  | nil =>
    cases h
    exact hwf
  | cons w ws ih =>
    obtain ⟨u, hu⟩ := acceptWord_total w s
    rw [acceptAll_cons hu] at h
    exact ih (acceptWord_keeps_blockWf hwf hu) h

theorem Reaches.blockWf {c : Config} {b : Block} (h : Reaches c b) : blockWf c.maxPayload b = true := by
  obtain ⟨ws, t, ht, rfl⟩ := h
  have hcfg : t.cfg = c := acceptAll_cfg ht
  exact hcfg ▸ acceptAll_keeps_blockWf (blockWf_idle _) ht

/-! ### Every block of R26's table is reached -/

theorem Reaches.idle (c : Config) : Reaches c Block.idle :=
  ⟨[], State.resetWith c, rfl, rfl⟩

/-- One more word. -/
theorem Reaches.word {c : Config} {b b' : Block} (h : Reaches c b) (w : Word)
    (hword : ∀ s : State, s.cfg = c → s.block = b → ∃ t, acceptWord w s = .next t ∧ t.block = b') :
    Reaches c b' := by
  obtain ⟨ws, u, hu, hb⟩ := h
  obtain ⟨t, ht, hb'⟩ := hword u (acceptAll_cfg hu) hb
  exact ⟨ws ++ [w], t, (acceptAll_append hu [w]).trans (acceptAll_singleton ht), hb'⟩

theorem Reaches.csumBegin (c : Config) : Reaches c (csumBlock 2#2 0#8) :=
  (Reaches.idle c).word _ fun _ _ hb => ⟨_, acceptWord_csumBegin_of_idle hb, rfl⟩

theorem Reaches.skip {c : Config} {k : BitVec 2} {a : Byte} (h : Reaches c (csumBlock k a)) (hk : k ≠ 0#2) :
    Reaches c (csumBlock (k - 1#2) a) :=
  h.word _ fun _ _ hb => ⟨_, acceptWord_data_of_skipping hb hk 0#8, rfl⟩

/-- The CSUM row: BEGIN, then the skipped bytes, then the byte that is the sum. -/
theorem reaches_csumBlock (c : Config) {k : BitVec 2} {a : Byte} (h : k = 0#2 ∨ (k.toNat ≤ 2 ∧ a = 0#8)) :
    Reaches c (csumBlock k a) := by
  have hone : Reaches c (csumBlock 1#2 0#8) := (Reaches.csumBegin c).skip (by decide)
  have hzero : Reaches c (csumBlock 0#2 0#8) := hone.skip (by decide)
  have hskips : ∀ k : BitVec 2, k.toNat ≤ 2 → k = 0#2 ∨ k = 1#2 ∨ k = 2#2 := by decide
  rcases h with rfl | ⟨hle, rfl⟩
  · refine hzero.word _ fun _ _ hb => ⟨_, acceptWord_data_of_counting hb a, ?_⟩
    rw [advance_block, addByte, BitVec.zero_add]
  · rcases hskips k hle with rfl | rfl | rfl
    · exact hzero
    · exact hone
    · exact Reaches.csumBegin c

/-- The FRAME row: BEGIN and the payload. -/
theorem reaches_frameBlock (c : Config) {p : List Byte} (h : p.length ≤ c.maxPayload) : Reaches c (frameBlock p) :=
  ⟨_, _, acceptAll_open_frame (s := State.resetWith c) rfl h, rfl⟩

/-- The ERR row: for each fault a block of another row and a word that gives it there. -/
theorem reaches_faultBlock (c : Config) (code : FaultCode) : Reaches c (faultBlock code) := by
  cases code with
  | illegal =>
    refine (Reaches.idle c).word 0x0000#16 fun s _ hb => ⟨countWord (raiseFault .illegal s), ?_, rfl⟩
    exact acceptWord_of_illegal_outside_err (by decide) (by rw [hb]; decide)
  | sequence =>
    refine (Reaches.idle c).word (encode .endOp) fun s _ hb => ⟨countWord (raiseFault .sequence s), ?_, rfl⟩
    rw [acceptWord_encode, exec_endOp_of_idle (by rw [hb]; rfl)]
    rfl
  | short => exact (Reaches.csumBegin c).word _ fun _ _ hb => ⟨_, acceptWord_endOp_of_skipping hb (by decide), rfl⟩
  | overflow =>
    have hlen : (List.replicate c.maxPayload 0#8).length = c.maxPayload := List.length_replicate
    refine (reaches_frameBlock c hlen.le).word _ fun s hc hb => ⟨_, acceptWord_data_of_full hb ?_ 0#8, rfl⟩
    rw [hlen, hc]

theorem reaches_iff_blockWf (c : Config) (b : Block) : Reaches c b ↔ blockWf c.maxPayload b = true := by
  refine ⟨Reaches.blockWf, fun h => ?_⟩
  rcases (blockWf_iff _ b).mp h with rfl | ⟨k, a, rfl, hrow⟩ | ⟨p, rfl, hlen⟩ | ⟨code, rfl⟩
  · exact Reaches.idle c
  · exact reaches_csumBlock c hrow
  · exact reaches_frameBlock c hlen
  · exact reaches_faultBlock c code

/-! ### Where a run starts -/

theorem start_of_blockWf {s : State} (hc : s.cfg.wf = true) (hr : s.resetDone = true)
    (hwf : blockWf s.cfg.maxPayload s.block = true) : start s = .next s := by
  rw [start, startable, hc, hr, hwf]
  rfl

theorem start_of_not_blockWf {s : State} (hwf : blockWf s.cfg.maxPayload s.block = false) :
    start s = .refused .unreachableStart := by
  rw [start, startable, hwf, Bool.and_false]
  rfl

/-- Settles O41: `start` asks for R26's table, and that is what words from reset reach. -/
theorem startableBlocksAreTheReachableOnes : Obligations.StartableBlocksAreTheReachableOnes := by
  intro c b hc
  have hreach := (reaches_iff_blockWf c b).symm.trans (reaches_iff_steps c b)
  refine ⟨hreach, ?_⟩
  rintro s rfl hr rfl
  refine ⟨fun h => ?_, fun h => ?_⟩
  · have hstart := start_of_blockWf hc hr (hreach.mpr h)
    exact ⟨hstart, fun k => by rw [runFrom, hstart]⟩
  · have hstart := start_of_not_blockWf (Bool.eq_false_iff.mpr fun hwf => h (hreach.mp hwf))
    exact ⟨hstart, fun k => by rw [runFrom, hstart]⟩

end Sys2Proof.Machine
end

section
/-! SUPPORT. The assembler: the words of a list of lines, numerals read back digit by digit, blanks and comments, and the
statements about assembly settled from these (30_encoding.md section 5, R74, R75). -/

namespace Sys2Proof.Machine

/-! ### The words of lines -/

theorem assembleLine_of_wf {l : AsmLine} (h : l.wf = true) : assembleLine l = some (lineWords l) :=
  if_pos h

theorem assembleLine_of_not_wf {l : AsmLine} (h : l.wf = false) : assembleLine l = none :=
  if_neg (by rw [h]; decide)

/-- Lines assemble to their words one after another, and to an error exactly when one of them does. -/
theorem assemble_eq_ite (ls : List AsmLine) :
    assemble ls = if ls.all AsmLine.wf then some (ls.flatMap lineWords) else none := by
  have hmapM : ls.mapM assembleLine = if ls.all AsmLine.wf then some (ls.map lineWords) else none := by
    induction ls with
    | nil => rfl
    | cons l ls ih =>
      rw [List.mapM_cons, ih, List.all_cons]
      cases hl : l.wf with
      | false =>
        rw [assembleLine_of_not_wf hl]
        rfl
      | true =>
        rw [assembleLine_of_wf hl]
        cases ls.all AsmLine.wf <;> rfl
  rw [assemble, hmapM, List.flatMap_def]
  cases ls.all AsmLine.wf <;> rfl

/-- BEGIN, DATA lines and END are in range when their bytes are. -/
theorem all_wf_call_lines {b : AsmLine} (hb : b.wf = true) (bs : List Nat) :
    (b :: bs.map AsmLine.data ++ [AsmLine.endOp]).all AsmLine.wf = bs.all imm8Ok := by
  have hdata : AsmLine.wf ∘ AsmLine.data = imm8Ok := rfl
  rw [List.all_append, List.all_cons, List.all_map, hb, hdata, Bool.true_and]
  exact Bool.and_true _

/-- BEGIN, DATA lines and END give the words of the instructions that they stand for (R75). -/
theorem flatMap_lineWords_call_lines {b : AsmLine} {i : Instr} (hb : lineWords b = [encode i]) (bs : List Nat) :
    (b :: bs.map AsmLine.data ++ [AsmLine.endOp]).flatMap lineWords
      = (i :: (bs.map (BitVec.ofNat 8)).map Instr.data ++ [Instr.endOp]).map encode := by
  have hdata : (bs.map AsmLine.data).flatMap lineWords = ((bs.map (BitVec.ofNat 8)).map Instr.data).map encode := by
    rw [List.flatMap_map, List.map_map, List.map_map]
    exact List.map_eq_flatMap.symm
  rw [List.flatMap_append, List.flatMap_cons, hb, hdata, List.map_append, List.map_cons]
  rfl

/-- Settles O58: both sides ask the same range of every byte and give the same words. -/
theorem pseudoInstructionsExpand : Obligations.PseudoInstructionsExpand := by
  refine ⟨fun bs => ?_, fun ps => ?_⟩
  · rw [assemble_eq_ite, all_wf_call_lines (b := .csumBegin) rfl, flatMap_lineWords_call_lines (i := .csumBegin) rfl]
    rfl
  · rw [assemble_eq_ite, all_wf_call_lines (b := .frameBegin) rfl, flatMap_lineWords_call_lines (i := .frameBegin) rfl]
    rfl

/-- Settles O57: each mnemonic's word by computation, and the two ranges by their bounds. -/
theorem assemblerWordsAndRanges : Obligations.AssemblerWordsAndRanges := by
  refine ⟨by decide, by decide, by decide, by decide, by decide, fun n hn => ?_, fun n hn => ?_, fun n hn => ?_,
    fun n hn => ?_⟩
  · rw [assembleLine_of_wf (l := .data n) (decide_eq_true hn), lineWords, encode_data,
      zext16_ofNat (Nat.lt_succ_of_le hn)]
  · exact assembleLine_of_not_wf (decide_eq_false (Nat.not_le.mpr hn))
  · exact assembleLine_of_wf (decide_eq_true hn)
  · exact assembleLine_of_not_wf (decide_eq_false (Nat.not_le.mpr hn))

/-! ### Numerals -/

theorem digitsFrom_append {base : Nat} {digit : Char → Option Nat} {acc m : Nat} {cs : List Char}
    (h : digitsFrom base digit acc cs = some m) (cs' : List Char) :
    digitsFrom base digit acc (cs ++ cs') = digitsFrom base digit m cs' := by
  induction cs generalizing acc with
  | nil =>
    cases h
    rfl
  | cons c cs ih =>
    cases hc : digit c with
    | none => simp [digitsFrom, hc] at h
    | some d =>
      simp only [digitsFrom, hc] at h
      simp only [List.cons_append, digitsFrom, hc, ih h]

/-- The digits of a number, most significant first, are read back as the number. -/
theorem digitsFrom_toDigits {base : Nat} {digit : Char → Option Nat} (hbase : 1 < base)
    (hdigit : ∀ d < base, digit (Nat.digitChar d) = some d) (n : Nat) :
    digitsFrom base digit 0 (Nat.toDigits base n) = some n := by
  have hone : ∀ acc d, d < base → digitsFrom base digit acc [Nat.digitChar d] = some (acc * base + d) := by
    intro acc d hd
    simp only [digitsFrom, hdigit d hd]
  induction n using Nat.strongRecOn with
  | ind n ih =>
    by_cases hn : n < base
    · rw [Nat.toDigits_of_lt_base hn, hone 0 n hn, Nat.zero_mul, Nat.zero_add]
    · have hdiv : n / base < n := Nat.div_lt_self (by omega) hbase
      have hmod : n % base < base := Nat.mod_lt n (by omega)
      rw [Nat.toDigits_of_base_le hbase (Nat.not_lt.mp hn), digitsFrom_append (ih _ hdiv), hone _ _ hmod,
        Nat.mul_comm, Nat.div_add_mod]

theorem decDigit_digitChar : ∀ d < 10, decDigit (Nat.digitChar d) = some d := by
  decide

theorem hexDigit_digitChar : ∀ d < 16, hexDigit (Nat.digitChar d) = some d := by
  decide

theorem isDigit_of_mem_toDigits_ten {n : Nat} : ∀ c ∈ Nat.toDigits 10 n, c.isDigit = true :=
  fun _ hc => Nat.isDigit_of_mem_toDigits (by decide) (by decide) hc

/-- Decimal digits never begin with `0x`. -/
theorem parseNumeral_of_digits {t : List Char} (hne : t ≠ []) (hdigits : ∀ c ∈ t, c.isDigit = true) :
    parseNumeral t = digitsFrom 10 decDigit 0 t := by
  unfold parseNumeral
  split
  next c cs =>
    have hx := hdigits 'x' (by simp)
    simp at hx
  next => rfl
  next => exact absurd rfl hne

theorem parseNumeral_decimal (n : Nat) : parseNumeral (Nat.toDigits 10 n) = some n := by
  rw [parseNumeral_of_digits Nat.toDigits_ne_nil isDigit_of_mem_toDigits_ten,
    digitsFrom_toDigits (by decide) decDigit_digitChar]

theorem parseNumeral_hexadecimal (n : Nat) : parseNumeral ('0' :: 'x' :: Nat.toDigits 16 n) = some n := by
  have hread := digitsFrom_toDigits (by decide) hexDigit_digitChar n
  obtain ⟨c, cs, hcs⟩ := List.exists_cons_of_ne_nil (Nat.toDigits_ne_nil (n := n) (b := 16))
  rw [hcs] at hread ⊢
  exact hread

/-! ### Blanks, commas and comments around digits -/

theorem isBlank_of_isDigit {c : Char} (h : c.isDigit = true) : isBlank c = false := by
  refine Bool.eq_false_iff.mpr fun hblank => ?_
  simp only [isBlank, Bool.or_eq_true, beq_iff_eq] at hblank
  rcases hblank with rfl | rfl
  · simp at h
  · simp at h

theorem dropWhile_isBlank_of_digits {t : List Char} (h : ∀ c ∈ t, c.isDigit = true) : t.dropWhile isBlank = t := by
  cases t with
  | nil => rfl
  | cons c cs => exact List.dropWhile_cons_of_neg (by simp [isBlank_of_isDigit (h c List.mem_cons_self)])

theorem dropWhile_isBlank_reverse_of_digits {t : List Char} (h : ∀ c ∈ t, c.isDigit = true) :
    t.reverse.dropWhile isBlank = t.reverse :=
  dropWhile_isBlank_of_digits fun c hc => h c (List.mem_reverse.mp hc)

theorem trimBlanks_blank_cons_digits {t : List Char} (h : ∀ c ∈ t, c.isDigit = true) :
    trimBlanks (' ' :: t) = t := by
  have hfront : (' ' :: t).dropWhile isBlank = t := by
    rw [List.dropWhile_cons_of_pos rfl, dropWhile_isBlank_of_digits h]
  rw [trimBlanks, hfront, dropWhile_isBlank_reverse_of_digits h, List.reverse_reverse]

/-- A text that begins with no blank and ends in digits has no blanks at its ends. -/
theorem trimBlanks_append_digits {c : Char} {cs t : List Char} (hc : isBlank c = false) (hne : t ≠ [])
    (h : ∀ c ∈ t, c.isDigit = true) : trimBlanks (c :: cs ++ t) = c :: cs ++ t := by
  have hfront : (c :: cs ++ t).dropWhile isBlank = c :: cs ++ t := List.dropWhile_cons_of_neg (by simp [hc])
  have hback : (c :: cs ++ t).reverse.dropWhile isBlank = (c :: cs ++ t).reverse := by
    rw [List.reverse_append, List.dropWhile_append, dropWhile_isBlank_reverse_of_digits h]
    simp [hne]
  rw [trimBlanks, hfront, hback, List.reverse_reverse]

theorem splitCommas_of_not_mem {t : List Char} (h : ',' ∉ t) : splitCommas t = [t] := by
  induction t with
  | nil => rfl
  | cons c cs ih =>
    rw [splitCommas, if_neg (List.ne_of_not_mem_cons h).symm, ih (List.not_mem_of_not_mem_cons h)]

theorem parseOperands_blank_decimal (n : Nat) : parseOperands (' ' :: Nat.toDigits 10 n) = some [n] := by
  have hcomma : ',' ∉ ' ' :: Nat.toDigits 10 n := by
    refine List.not_mem_cons_of_ne_of_not_mem (by decide) fun hmem => ?_
    have hdigit := isDigit_of_mem_toDigits_ten _ hmem
    simp at hdigit
  rw [parseOperands, trimBlanks_blank_cons_digits isDigit_of_mem_toDigits_ten, if_neg Nat.toDigits_ne_nil,
    splitCommas_of_not_mem hcomma, List.mapM_cons, List.mapM_nil,
    trimBlanks_blank_cons_digits isDigit_of_mem_toDigits_ten, parseNumeral_decimal]
  rfl

/-- Without a semicolon the whole line is code. -/
theorem takeWhile_code {code : List Char} (h : ';' ∉ code) : code.takeWhile (fun c => c != ';') = code := by
  rw [List.takeWhile_eq_self_iff]
  intro c hc
  exact bne_iff_ne.mpr (ne_of_mem_of_not_mem hc h)

/-- What stands after the first semicolon is dropped (R74). -/
theorem parseLine_comment {code : List Char} (h : ';' ∉ code) (text : List Char) :
    parseLine (code ++ ';' :: text) = parseLine code := by
  have hcode : ∀ c ∈ code, (c != ';') = true := fun c hc => bne_iff_ne.mpr (ne_of_mem_of_not_mem hc h)
  have htake : (code ++ ';' :: text).takeWhile (fun c => c != ';') = code := by
    rw [List.takeWhile_append_of_pos hcode, List.takeWhile_cons_of_neg (by simp), List.append_nil]
  rw [parseLine, htake, parseLine, takeWhile_code h]

theorem parseLine_data_decimal (n : Nat) :
    parseLine (['D', 'A', 'T', 'A', ' '] ++ Nat.toDigits 10 n) = some [.data n] := by
  have hsemi : ';' ∉ ['D', 'A', 'T', 'A', ' '] ++ Nat.toDigits 10 n := by
    refine List.not_mem_append (by decide) fun hmem => ?_
    have hdigit := isDigit_of_mem_toDigits_ten _ hmem
    simp at hdigit
  have htrim : trimBlanks (['D', 'A', 'T', 'A', ' '] ++ Nat.toDigits 10 n)
      = ['D', 'A', 'T', 'A', ' '] ++ Nat.toDigits 10 n :=
    trimBlanks_append_digits (by decide) Nat.toDigits_ne_nil isDigit_of_mem_toDigits_ten
  have hname : (['D', 'A', 'T', 'A', ' '] ++ Nat.toDigits 10 n).takeWhile (fun c => !isBlank c)
      = ['D', 'A', 'T', 'A'] := rfl
  have hops : (['D', 'A', 'T', 'A', ' '] ++ Nat.toDigits 10 n).dropWhile (fun c => !isBlank c)
      = ' ' :: Nat.toDigits 10 n := rfl
  rw [parseLine, takeWhile_code hsemi, htrim, hname, hops, parseOperands_blank_decimal]
  rfl

/-- Settles O59: numerals by their digits, the DATA line and the comment rule for every text, and each spelling by
computation. -/
theorem assemblyTextIsReadBack : Obligations.AssemblyTextIsReadBack :=
  ⟨parseNumeral_decimal, parseNumeral_hexadecimal, parseLine_data_decimal, by decide, by decide, by decide, by decide,
    by decide, by decide, by decide, by decide, by decide, by decide, by decide, by decide, by decide, by decide,
    by decide, by decide, fun _ text h => parseLine_comment h text⟩

end Sys2Proof.Machine
end
